-- ==== Sys2Proof/Word.lean ====
section
/-! DEFINITION. The word types of the block: bytes, 16-bit and 32-bit values (00_scope.md R11, R12; all values
are unsigned). -/

namespace Sys2Proof

/-- A byte, 8 bits (R12). -/
abbrev Byte := BitVec 8

/-- A 16-bit value: a size field, a CRC field, a 16-bit operand (R28, R87). -/
abbrev Half := BitVec 16

/-- A 32-bit value: an address word, a 32-bit operand, a word of `MEM` (R28, R83). -/
abbrev Word := BitVec 32

end Sys2Proof
end

