-- ==== Sys2Proof/Config.lean ====
section
/-! DEFINITION. What an implementation of the block fixes (00_scope.md R6 to R8) and the free values, which have no
body: nothing can be proved about their value. -/

namespace Sys2Proof.Config

/-- `REG_SLOTS` (R7): the number of entries of the handler registry. -/
def regSlots : Nat := 16

/-- `KEY_MAX` (R7): the greatest length of a key in bytes. -/
def keyMax : Nat := 7

/-- `SYNC` (R7): the value of the size field that is the resync marker. -/
def syncMarker : Half := 0xAA55

/-- `SYNC4` (R7): the doubled marker, in arrival order. -/
def sync4Bytes : List Byte := [0x55, 0xAA, 0x55, 0xAA]

/-- `SIZE_MIN` (R7): the least legal value of a received size field. -/
def sizeMin : Nat := 2

/-- `SEP` (R7): ASCII colon. -/
def sep : Byte := 0x3A

/-- `ACK` (R7): ASCII `"OK"`. -/
def ackData : List Byte := [0x4F, 0x4B]

/-- `RA_KEY` (R7): ASCII `"_"`, the key of the Register-Access Handler. -/
def raKey : List Byte := [0x5F]

/-- What the implementer of the block chose for the buffer's capacity, before the constraint of R6 is applied. -/
opaque rxCapChoice : Nat

/-- `RX_CAP` (R6): any value with `6 <= RX_CAP <= 65535`. Log entry 1. -/
def rxCap : Nat := 6 + rxCapChoice % 65530

/-- `q` differs from `p` in exactly one bit. -/
def DiffersInOneBit (p q : List Byte) : Prop :=
  ∃ (front back : List Byte) (b : Byte) (k : Fin 8),
    p = front ++ b :: back ∧ q = front ++ (b ^^^ (1#8 <<< k.val)) :: back

/-- Property P2 of R8: changing exactly one bit of a sequence changes its CRC. (P1 is that the CRC is a function of
the sequence.) -/
def SingleBitSensitive (f : List Byte → Half) : Prop :=
  ∀ p q, DiffersInOneBit p q → f p ≠ f q

/-- One shift of the reference CRC register: polynomial 0x1021, most significant bit first (R8). -/
def crcShift (c : Half) : Half :=
  if c.msb then (c <<< 1) ^^^ 0x1021 else c <<< 1

/-- One byte into the reference CRC register (R8). -/
def crcByte (c : Half) (b : Byte) : Half :=
  Nat.repeat crcShift 8 (c ^^^ (b.zeroExtend 16 <<< 8))

/-- `CRC16_REF` (R8): CRC-16/CCITT-FALSE, initial value 0xFFFF, no reflection, no final xor. Used by the spec's test
vectors only; no rule depends on it. -/
def crc16Ref (p : List Byte) : Half := p.foldl crcByte 0xFFFF

/-- The collaborator's choice of a CRC function: any function with P2, or none, where the reference instance stands
in. Together the two cases are exactly the functions R8 admits. Log entry 2. -/
opaque crc16Choice : Option { f : List Byte → Half // SingleBitSensitive f }

/-- `CRC16` (R8): a named parameter of which only P1 and P2 are known. -/
def crc16 (p : List Byte) : Half :=
  match crc16Choice with
  | some f => f.1 p
  | none => crc16Ref p

/-- FREE VALUE: what byte `i` of `RXBUF` holds before anything has been received into it (10_state.md R31,
93_implementation_defined.md U13). Log entry 3. -/
opaque rxbufInit : Nat → Byte

/-- FREE VALUE: what the byte of `MEM` at an address holds while neither the block nor the environment's own list of
changes has set it (10_state.md R32: the block does not reset it). Log entry 4. -/
opaque memInit : Nat → Byte

/-- FREE VALUE: the `n`-th byte sent from past the end of the data a handler gave (44_transmit_resync.md R170 says
only that bytes `0 .. size-1` of the data are sent). Log entry 11. -/
opaque pastEnd : Nat → Byte

end Sys2Proof.Config
end

