-- ==== Sys2Proof/Syntax.lean ====
section
/-! DEFINITION. The instructions of the block, one constructor per row of spec/opcode_table.json: the link items the
block decodes, the uplink items it transmits, and the twelve classes of micro-instruction (30_encoding.md R70). -/

namespace Sys2Proof

/-- An instruction. Addresses are target addresses, `word & 0xFFFFFFFC` (43_regaccess.md R150). -/
inductive Instr where
  /-- `FRAME`, format F (R71): a payload and the CRC field received with it. -/
  | frame (payload : List Byte) (crc : Half)
  /-- `SYNC`, format S (R77): the resync marker at an item boundary. -/
  | sync
  /-- `SYNC4`, format S4 (R78): the doubled marker at the tail of the filled region. -/
  | sync4
  /-- `ILLEGAL_SIZE` (R89, R122): a size field of 0 or 1. -/
  | illegalSize (size : Half)
  /-- `ACK` (R82, R173): the acknowledgement of the resync handshake. -/
  | ack
  /-- `REPLY` (R80, R170): an uplink frame of `size` bytes of `data`. -/
  | reply (size : Half) (data : List Byte)
  /-- `RD32 addr` (R151). -/
  | rd32 (addr : Word)
  /-- `RD8 addr` (R152). -/
  | rd8 (addr : Word)
  /-- `RD16 addr` (R153). -/
  | rd16 (addr : Word)
  /-- `SETB addr, idx` (R154). -/
  | setb (addr : Word) (idx : Byte)
  /-- `WR8 addr, imm8` (R155). -/
  | wr8 (addr : Word) (imm8 : Byte)
  /-- `CLRB addr, idx` (R156). -/
  | clrb (addr : Word) (idx : Byte)
  /-- `WR16 addr, imm16` (R157). -/
  | wr16 (addr : Word) (imm16 : Half)
  /-- `WR32 addr, imm32` (R158). -/
  | wr32 (addr : Word) (imm32 : Word)
  /-- `OR32 addr, imm32` (R159). -/
  | or32 (addr : Word) (imm32 : Word)
  /-- `AND32 addr, imm32` (R160). -/
  | and32 (addr : Word) (imm32 : Word)
  /-- `MOD32 addr, mask, value` (R161). -/
  | mod32 (addr : Word) (mask : Word) (value : Word)
  /-- `NOP` (R88, R162): every body that selects no other class. -/
  | nop (body : List Byte)
  deriving DecidableEq, Repr

/-- Where an instruction is decoded: the two levels of R70, the tail inspection of R103 and the uplink of R80. -/
inductive Level where
  /-- `RXBUF` from `CUR` on, while `ERR = 0`. -/
  | link
  /-- The last four bytes of the filled region, while `ERR = 1`. -/
  | tail
  /-- The body of a frame handed to the Register-Access Handler. -/
  | body
  /-- An item the block transmits. -/
  | uplink
  deriving DecidableEq, Repr

/-- The level an instruction belongs to (the `level` of its row in spec/opcode_table.json). -/
def Instr.level : Instr → Level
  | .frame _ _ => .link
  | .sync => .link
  | .sync4 => .tail
  | .illegalSize _ => .link
  | .ack => .uplink
  | .reply _ _ => .uplink
  | .rd32 _ => .body
  | .rd8 _ => .body
  | .rd16 _ => .body
  | .setb _ _ => .body
  | .wr8 _ _ => .body
  | .clrb _ _ => .body
  | .wr16 _ _ => .body
  | .wr32 _ _ => .body
  | .or32 _ _ => .body
  | .and32 _ _ => .body
  | .mod32 _ _ _ => .body
  | .nop _ => .body

end Sys2Proof
end

