-- ==== Sys2Proof/WellFormed.lean ====
section
/-! DEFINITION. Which instructions an encoding of the spec admits (30_encoding.md R72, R83, R88, R89). -/

namespace Sys2Proof

/-- A legal received size (R72): `2 <= size <= 0xFFFF` and `size != 0xAA55`. -/
def legalSize (n : Nat) : Bool :=
  Config.sizeMin ≤ n && n ≤ 0xFFFF && n != Config.syncMarker.toNat

/-- The eleven `(blen, op)` pairs that select a class other than `NOP` (R86, R88). -/
def definedClasses : List (Nat × Nat) :=
  [(4, 0), (4, 1), (4, 2), (5, 0), (5, 1), (5, 2), (6, 0), (8, 0), (8, 1), (8, 2), (12, 0)]

/-- The body belongs to the no-op class (R88): it is shorter than an address word, or its length and the low two bits
of its first byte are no defined pair. -/
def isNopBody (body : List Byte) : Bool :=
  body.length < 4 || !definedClasses.contains (body.length, (body.getD 0 0).toNat % 4)

/-- The longest body a frame can carry: 65535 payload bytes less the colon (41_frame_parser.md R129). -/
def maxBody : Nat := 65534

/-- A target address has its low two bits clear (20_memory.md R57). -/
def alignedAddr (addr : Word) : Bool := addr &&& 3 == 0

/-- The instruction is one an encoding of the spec stands for. -/
def Instr.wf : Instr → Bool
  | .frame payload _ => legalSize payload.length
  | .sync => true
  | .sync4 => true
  | .illegalSize size => size.toNat < Config.sizeMin
  | .ack => true
  | .reply size data => data.length == size.toNat
  | .rd32 addr => alignedAddr addr
  | .rd8 addr => alignedAddr addr
  | .rd16 addr => alignedAddr addr
  | .setb addr _ => alignedAddr addr
  | .wr8 addr _ => alignedAddr addr
  | .clrb addr _ => alignedAddr addr
  | .wr16 addr _ => alignedAddr addr
  | .wr32 addr _ => alignedAddr addr
  | .or32 addr _ => alignedAddr addr
  | .and32 addr _ => alignedAddr addr
  | .mod32 addr _ _ => alignedAddr addr
  | .nop body => isNopBody body && body.length ≤ maxBody

end Sys2Proof
end

