-- ==== Sys2Proof/Decode.lean ====
section
/-! DEFINITION. From bytes to instructions and back (30_encoding.md): byte order, the decoders of the link level, the
tail inspection, the micro-instruction level and the uplink, one decoder over all of them, and the encoder. -/

namespace Sys2Proof

/-! ## Byte order (00_scope.md R12, 20_memory.md R50, R51) -/

/-- `le16(s, i)`: byte `i` is the low half. -/
def le16 (s : List Byte) (i : Nat) : Half :=
  s.getD (i + 1) 0 ++ s.getD i 0

/-- `le32(s, i)`: byte `i` is bits 7:0, byte `i + 3` bits 31:24. -/
def le32 (s : List Byte) (i : Nat) : Word :=
  le16 s (i + 2) ++ le16 s i

/-- `bytes_le(v, n)`: byte `k` is `v[8k+7:8k]`. -/
def bytesLe {w : Nat} (v : BitVec w) (n : Nat) : List Byte :=
  (List.range n).map fun k => v.extractLsb' (8 * k) 8

/-! ## Fields of a micro-instruction (R83, R84, R87) -/

/-- `op = word[1:0]`, the operation id. -/
def opField (word : Word) : BitVec 2 := word.extractLsb' 0 2

/-- `addr = word & 0xFFFFFFFC` (R57, R150). -/
def maskAddr (word : Word) : Word := word &&& 0xFFFFFFFC

/-- `dkey = blen*4 + op`, a natural number (R84). -/
def dispatchKey (blen : Nat) (op : BitVec 2) : Nat := blen * 4 + op.toNat

/-! ## Decoders -/

/-- What a decoder answers. -/
inductive Decoded where
  /-- An instruction, and the bytes that follow it. -/
  | instr (i : Instr) (rest : List Byte)
  /-- The item is not all there: the shortfall of `NeedMoreBytes` (R120, R123). -/
  | needMore (n : Nat)
  /-- No doubled marker stands at the tail (R103). -/
  | noMarker
  deriving DecidableEq, Repr

/-- The link level (R73; 41_frame_parser.md R120 to R123, the parser's steps 1 to 4): marker, then illegal size, then
completeness. -/
def decodeLink (b : List Byte) : Decoded :=
  let avail := b.length
  if avail < 2 then .needMore (2 - avail)
  else
    let size := le16 b 0
    if size = Config.syncMarker then .instr .sync (b.drop 2)
    else if size.toNat < Config.sizeMin then .instr (.illegalSize size) (b.drop 2)
    else
      let total := size.toNat + 4
      if avail < total then .needMore (total - avail)
      else .instr (.frame ((b.drop 2).take size.toNat) (le16 b (2 + size.toNat))) (b.drop total)

/-- The tail inspection (R78, R103): exactly the four bytes `55 AA 55 AA`. -/
def decodeTail (b : List Byte) : Decoded :=
  if b = Config.sync4Bytes then .instr .sync4 [] else .noMarker

/-- The micro-instruction a body is (43_regaccess.md R150). -/
def decodeBody (b : List Byte) : Instr :=
  if b.length < 4 then .nop b
  else
    let word := le32 b 0
    let addr := maskAddr word
    match dispatchKey b.length (opField word) with
    | 16 => .rd32 addr
    | 17 => .rd8 addr
    | 18 => .rd16 addr
    | 20 => .setb addr (b.getD 4 0)
    | 21 => .wr8 addr (b.getD 4 0)
    | 22 => .clrb addr (b.getD 4 0)
    | 24 => .wr16 addr (le16 b 4)
    | 32 => .wr32 addr (le32 b 4)
    | 33 => .or32 addr (le32 b 4)
    | 34 => .and32 addr (le32 b 4)
    | 48 => .mod32 addr (le32 b 4) (le32 b 8)
    | _ => .nop b

/-- An uplink item (R80, R82), read back from its bytes. The block never decodes its own output; this is the reading
of the table's uplink rows. The CRC field is passed over, not checked. Log entry 18. -/
def decodeUplink (b : List Byte) : Decoded :=
  let size := le16 b 0
  let total := size.toNat + 4
  if b.length < 2 then .needMore (2 - b.length)
  else if b.length < total then .needMore (total - b.length)
  else
    let data := (b.drop 2).take size.toNat
    if data = Config.ackData then .instr .ack (b.drop total)
    else .instr (.reply size data) (b.drop total)

/-- The decoder of a level. It is total on any bytes. -/
def decode : Level → List Byte → Decoded
  | .link, b => decodeLink b
  | .tail, b => decodeTail b
  | .body, b => .instr (decodeBody b) []
  | .uplink, b => decodeUplink b

/-! ## Encoder -/

/-- The address word of a micro-instruction (R83, R92): `bytes_le(addr | op, 4)`. -/
def addrWord (addr : Word) (op : Word) : List Byte := bytesLe (addr ||| op) 4

/-- A frame on the wire (R71, R80): size, data, CRC field. -/
def envelope (size : Half) (data : List Byte) (crc : Half) : List Byte :=
  bytesLe size 2 ++ data ++ bytesLe crc 2

/-- The bytes of an instruction. -/
def encode : Instr → List Byte
  | .frame payload crc => envelope (BitVec.ofNat 16 payload.length) payload crc
  | .sync => bytesLe Config.syncMarker 2
  | .sync4 => Config.sync4Bytes
  | .illegalSize size => bytesLe size 2
  | .ack => envelope 2 Config.ackData (Config.crc16 Config.ackData)
  | .reply size data => envelope size data (Config.crc16 data)
  | .rd32 addr => addrWord addr 0
  | .rd8 addr => addrWord addr 1
  | .rd16 addr => addrWord addr 2
  | .setb addr idx => addrWord addr 0 ++ [idx]
  | .wr8 addr imm8 => addrWord addr 1 ++ [imm8]
  | .clrb addr idx => addrWord addr 2 ++ [idx]
  | .wr16 addr imm16 => addrWord addr 0 ++ bytesLe imm16 2
  | .wr32 addr imm32 => addrWord addr 0 ++ bytesLe imm32 4
  | .or32 addr imm32 => addrWord addr 1 ++ bytesLe imm32 4
  | .and32 addr imm32 => addrWord addr 2 ++ bytesLe imm32 4
  | .mod32 addr mask value => addrWord addr 0 ++ bytesLe mask 4 ++ bytesLe value 4
  | .nop body => body

/-- A frame around a payload, as a sender makes it (R92): `FRAME(payload)`. -/
def frameOf (payload : List Byte) : Instr := .frame payload (Config.crc16 payload)

/-- The payload of a register-access frame (R92): the key `"_"`, a colon, the body. -/
def raPayload (body : List Byte) : List Byte := Config.raKey ++ Config.sep :: body

/-! ## Words numbered as the opcode table numbers them -/

/-- The little-endian bytes of a natural number: bit 0 is the least significant bit of the first byte. -/
def natBytes (v n : Nat) : List Byte :=
  (List.range n).map fun k => BitVec.ofNat 8 (v >>> (8 * k))

/-- The level a table word is read at: a 16-bit word stands at a link item boundary; the two 32-bit words whose every
bit the table fixes are the doubled marker and the acknowledgement; any other word is a body. Log entry 13. -/
def tableLevel (nbits w : Nat) : Level :=
  if nbits = 16 then .link
  else if nbits = 32 ∧ w = 0xAA55AA55 then .tail
  else if nbits = 32 ∧ w = 0x4B4F0002 then .uplink
  else .body

/-- The bytes a table word stands for, the bits above it zero: a size field with the zero payload and CRC field of
the frame it begins, an acknowledgement with a zero CRC field, a body of at least the four bytes of an address
word. -/
def tableBytes (nbits w : Nat) : List Byte :=
  match tableLevel nbits w with
  | .link =>
    let size := w % 2 ^ 16
    natBytes w 2 ++ (if legalSize size then List.replicate (size + 2) 0 else [])
  | .tail => natBytes w 4
  | .uplink => natBytes w 4 ++ [0, 0]
  | .body => natBytes w (max 4 (nbits / 8))

/-- The instruction the decoder reads from a word of the opcode table. -/
def decodeTableWord (nbits w : Nat) : Option Instr :=
  match decode (tableLevel nbits w) (tableBytes nbits w) with
  | .instr i _ => some i
  | _ => none

end Sys2Proof
end

