-- ==== Sys2Proof/Machine/State.lean ====
section
/-! DEFINITION. The state of the block as plain data (10_state.md), the environment's spaces it reaches, and what the
other agents do, as data the step reads. -/

namespace Sys2Proof.Machine

/-- A memory: (address, byte) pairs, addresses strictly rising; an address that is not listed holds no byte yet. -/
abbrev Memory := List Host.Cell

/-- A handler agent (R29): the built-in Register-Access Handler, or one of at most 15 external ones (R10). -/
inductive HandlerId where
  | ra
  | ext (id : Fin 15)
  deriving DecidableEq, Repr

/-- An entry of the handler registry (R29). -/
structure RegEntry where
  key : List Byte
  handler : HandlerId
  deriving DecidableEq, Repr

/-- The two events of `EVQ` (R37). -/
inductive Event where
  | idle
  | transferComplete
  deriving DecidableEq, Repr

/-- What an agent other than the engine does, between two event steps (R18, R20). -/
inductive Input where
  /-- The link-in agent delivers a byte (R43). -/
  | byte (b : Byte)
  /-- The event source raises an idle event (R44). -/
  | raiseIdle
  /-- The engine is given a pending event to handle. Where either of two may go first (R45), `first` goes. -/
  | serve (first : Event)
  /-- The integrator's `register(key, handler)` (R141). -/
  | register (key : List Byte) (handler : HandlerId)
  /-- The integrator's `start()` (R100). -/
  | start
  /-- Another bus master, or a device, changes bytes of `MEM` (R56, R198). -/
  | memWrite (cells : List Host.Cell)
  deriving DecidableEq, Repr

/-- One `Transmit(data, size)` an external handler asks for (R146). -/
structure TxRequest where
  size : Half
  data : List Byte
  deriving DecidableEq, Repr

/-- What one call of an external handler does (R146): the bytes of `MEM` it changes, the transmissions it asks for in
order, and whether it then returns (R211 (c)). -/
structure HandlerReply where
  mem : List Host.Cell
  requests : List TxRequest
  returns : Bool
  deriving DecidableEq, Repr

/-- Why a payload is a format error (R135). -/
inductive FormatCause where
  | noColon
  | keyTooLong
  | noHandler
  deriving DecidableEq, Repr

/-- The five outcomes of the parser (R120, R180), with the value each records. -/
inductive ParseOutcome where
  | consumed (n : Nat)
  | needMoreBytes (n : Nat)
  | sync
  | transportError
  | formatError (consumed : Nat) (cause : FormatCause)
  deriving DecidableEq, Repr

/-- The spec's own number of an outcome (R180). -/
def ParseOutcome.code : ParseOutcome → Nat
  | .consumed _ => 0
  | .needMoreBytes _ => 1
  | .sync => 2
  | .transportError => 3
  | .formatError _ _ => 4

/-- What the parser keeps while a handler runs (R129 to R132): the frame's length `size + 4`, and the fill position
`wp` the idle event step sampled (R102). -/
structure FrameCtx where
  total : Nat
  wp : Nat
  deriving DecidableEq, Repr

/-- Where the engine stands. Outside `rest` an event step is running, and no other agent acts (R18). -/
inductive Phase where
  /-- Between event steps. -/
  | rest
  /-- In the parse loop of an idle event step that sampled `wp` (R102): the next link item is parsed. -/
  | parse (wp : Nat)
  /-- In an idle event step while latched (R103): the tail of the filled region is inspected. -/
  | tail (wp : Nat)
  /-- Step 9 of the parser (R129): a matched handler is to be run on the body. -/
  | handler (h : HandlerId) (body : List Byte) (ctx : FrameCtx)
  /-- An external handler is running: the transmissions it has still to make, and whether it returns. -/
  | uplink (requests : List TxRequest) (returns : Bool) (ctx : FrameCtx)
  /-- The handler has returned: steps 10 and 11 of the parser (R131, R132) come next. -/
  | returned (ctx : FrameCtx)
  /-- The acknowledgement is to be transmitted, as the last act of an event step (R173). Log entry 12. -/
  | ackDue
  deriving DecidableEq, Repr

/-- The three widths of an access to `MEM` (R54). -/
inductive Width where
  | byte
  | half
  | word
  deriving DecidableEq, Repr

/-- Its number of bytes. -/
def Width.bytes : Width → Nat
  | .byte => 1
  | .half => 2
  | .word => 4

/-- The two kinds of access. -/
inductive AccessKind where
  | read
  | write
  deriving DecidableEq, Repr

/-- One access to `MEM` as the environment sees it (R14): the value is the `8n`-bit value read or written. -/
structure Access where
  kind : AccessKind
  addr : Word
  width : Width
  value : Word
  deriving DecidableEq, Repr

/-- The machine's state. -/
structure State where
  /-- `CUR`, the receive cursor (R22). -/
  cur : Nat
  /-- `WP`, the write position (R23). -/
  wp : Nat
  /-- `ERR`, the Error Latch (R24). -/
  err : Bool
  /-- `TXF`, the pending-sync flag (R25). -/
  txf : Bool
  /-- `RXA`, reception active (R26). -/
  rxa : Bool
  /-- `REG[0 .. REGN-1]`, the handler registry (R29). -/
  reg : List RegEntry
  /-- `EVQ`: an idle event is pending (R37). -/
  idlePending : Bool
  /-- `EVQ`: a transfer-complete event is pending (R37). -/
  tcPending : Bool
  /-- `RXBUF`, the receive buffer (R31). -/
  rxbuf : Memory
  /-- `MEM`, the target memory (R32). -/
  mem : Memory
  /-- `TX`, the transmit stream, oldest byte first (R33). -/
  tx : List Byte
  /-- MODEL: where the engine stands inside an event step. -/
  phase : Phase
  /-- MODEL: the outcome of the last call of the parser. -/
  outcome : Option ParseOutcome
  /-- MODEL: the accesses made on `MEM`, oldest first (R14). -/
  memLog : List Access
  /-- MODEL: the bodies presented to external handlers, oldest first (R46). -/
  calls : List (HandlerId × List Byte)
  /-- ENVIRONMENT: what the other agents do, in order. -/
  inputs : List Input
  /-- ENVIRONMENT: the target memory's answers to the coming reads, in order; `none` where it answers with its
  contents (R53). -/
  reads : List (Option Word)
  /-- ENVIRONMENT: what the coming calls of external handlers do, in order (R146). -/
  handlers : List HandlerReply
  /-- MODEL: how many free values `Config.pastEnd` have been drawn. -/
  free : Nat
  deriving DecidableEq, Repr

/-- The state after reset (R48, R200). The spec states every value of the block's own state; `RXBUF` and `MEM` list
nothing. The model's and the environment's fields are empty. -/
def State.reset : State where
  cur := 0
  wp := 0
  err := false
  txf := false
  rxa := false
  reg := []
  idlePending := false
  tcPending := false
  rxbuf := []
  mem := []
  tx := []
  phase := .rest
  outcome := none
  memLog := []
  calls := []
  inputs := []
  reads := []
  handlers := []
  free := 0

/-- Why the machine stops. -/
inductive Fault where
  /-- Raised by the step where an external handler does not return: it stops the block for good, there is no watchdog
  (R211 (c), U7). Safe: nothing is claimed of the machine after it. No instruction raises it. -/
  | handlerHangs
  deriving DecidableEq, Repr

/-- Why an instruction has no meaning. -/
inductive Refusal where
  /-- An instruction of the table that this model gives no meaning yet. Safe: nothing is claimed of it. No arm of
  `exec` raises it. -/
  | notModelled (mnemonic : String)
  deriving DecidableEq, Repr

end Sys2Proof.Machine
end

