-- ==== Sys2Proof/Machine/Flags.lean ====
section
/-! DEFINITION. The two status flags `ERR` and `TXF`, the pending bits of `EVQ`, and the operating state they give
(10_state.md R24, R25, R27, R37; 60_exceptions.md R187, R190, R195). The block has no arithmetic flags (R27). -/

namespace Sys2Proof.Machine

/-- Entry to the latched state (R190): only `ERR` changes. -/
def State.latch (s : State) : State := { s with err := true }

/-- `TXF <- 1` (R170). -/
def State.markTransmitted (s : State) : State := { s with txf := true }

/-- `TXF <- 0` (R131, R173). -/
def State.clearTransmitted (s : State) : State := { s with txf := false }

/-- An idle event is raised (R37, R44); it is dropped while reception is not active. -/
def State.raiseIdle (s : State) : State :=
  if s.rxa then { s with idlePending := true } else s

/-- A transfer-complete event is raised (R37, R45). -/
def State.raiseTransferComplete (s : State) : State := { s with tcPending := true }

/-- `EVQ <- empty` (R100). -/
def State.dropEvents (s : State) : State := { s with idlePending := false, tcPending := false }

/-- The three operating states (R195). -/
inductive Mode where
  | stopped
  | run
  | latched
  deriving DecidableEq, Repr

/-- The operating state, a function of `RXA` and `ERR` (R195). -/
def State.mode (s : State) : Mode :=
  if s.rxa then (if s.err then .latched else .run) else .stopped

/-- Which pending event is handled next (R45, R189): the transfer-complete event before an idle event once the fill
has wrapped, either one while `WP = RX_CAP`. -/
def State.nextEvent (s : State) (first : Event) : Option Event :=
  match s.idlePending, s.tcPending with
  | true, true => some (if s.wp = Config.rxCap then first else .transferComplete)
  | true, false => some .idle
  | false, true => some .transferComplete
  | false, false => none

end Sys2Proof.Machine
end

