-- ==== Sys2Proof/Machine/Operands.lean ====
section
/-! DEFINITION. The operand forms and the bitwise operations of the micro-instructions (43_regaccess.md R164, R165),
and the fields of a payload (30_encoding.md R75). -/

namespace Sys2Proof.Machine

/-- The one addressing mode (R165): absolute, forced to a 4-byte boundary (R57). -/
def target (addr : Word) : Word := maskAddr addr

/-- A byte as an unsigned 8-bit value (R87). -/
def zext8 (v : Byte) : Word := v.zeroExtend 32

/-- A halfword as an unsigned 16-bit value (R87). -/
def zext16 (v : Half) : Word := v.zeroExtend 32

/-- A bit index selects a bit of a 32-bit word only if it is at most 31 (R154, R156). -/
def bitIndexOk (idx : Byte) : Bool := idx.toNat ≤ 31

/-- `1 << idx` at 32 bits (R164). -/
def bitMask (idx : Byte) : Word := 1#32 <<< idx.toNat

/-- `v | (1 << idx)` (R154). -/
def setBitOf (idx : Byte) (v : Word) : Word := v ||| bitMask idx

/-- `v & ~(1 << idx)`, with the 32-bit complement (R156). -/
def clearBitOf (idx : Byte) (v : Word) : Word := v &&& ~~~(bitMask idx)

/-- `v | imm32` (R159). -/
def orOf (imm v : Word) : Word := v ||| imm

/-- `v & imm32` (R160). -/
def andOf (imm v : Word) : Word := v &&& imm

/-- `(v & ~mask) | value` (R161). -/
def modifyOf (mask value v : Word) : Word := (v &&& ~~~mask) ||| value

/-- The index of the first colon of a payload, or none (R75, R126). -/
def colonIndex (payload : List Byte) : Option Nat :=
  payload.findIdx? (· == Config.sep)

/-- The key: the payload bytes before the first colon (R75, R127). -/
def keyOf (payload : List Byte) (colon : Nat) : List Byte := payload.take colon

/-- The body: the payload bytes after the first colon (R75, R129). -/
def bodyOf (payload : List Byte) (colon : Nat) : List Byte := payload.drop (colon + 1)

end Sys2Proof.Machine
end

