-- ==== Sys2Proof/Machine/Ops.lean ====
section
/-! DEFINITION. The shared operations: memories and their accesses, the receive buffer, the registry, start and
restart, the Transmit Path, the resync handshake, and the parser's outcomes with the caller's action on each. -/

namespace Sys2Proof.Machine

/-! ## Memories -/

/-- The byte an address holds, if it holds one. -/
def Memory.get? : Memory → Nat → Option Byte
  | [], _ => none
  | (a, v) :: rest, x => if x = a then some v else Memory.get? rest x

/-- Put a byte at an address, keeping the addresses strictly rising. -/
def Memory.set : Memory → Nat → Byte → Memory
  | [], x, b => [(x, b)]
  | (a, v) :: rest, x, b =>
    if x < a then (x, b) :: (a, v) :: rest
    else if x = a then (x, b) :: rest
    else (a, v) :: Memory.set rest x b

/-- The addresses are strictly rising. -/
def Memory.wf : Memory → Bool
  | [] => true
  | (a, _) :: rest => (rest.all fun c => a < c.1) && Memory.wf rest

/-- Store bytes at consecutive addresses. -/
def Memory.store : Memory → Nat → List Byte → Memory
  | m, _, [] => m
  | m, a, b :: rest => Memory.store (m.set a b) (a + 1) rest

/-- Change the listed bytes of a memory of 32-bit addresses. -/
def Memory.change (m : Memory) (cells : List Host.Cell) : Memory :=
  cells.foldl (fun m c => m.set (c.1 % 2 ^ 32) c.2) m

/-! ## `MEM` (20_memory.md R52 to R57) -/

/-- The byte of `MEM` at an address; a free value where nothing has set it. -/
def State.memByte (s : State) (a : Nat) : Byte := (s.mem.get? a).getD (Config.memInit a)

/-- The `n` bytes of `MEM` from an address on. -/
def State.memBytes (s : State) (a n : Nat) : List Byte :=
  (List.range n).map fun k => s.memByte (a + k)

/-- The low `8n` bits of a value. -/
def truncTo (w : Width) (v : Word) : Word :=
  match w with
  | .byte => (v.truncate 8).zeroExtend 32
  | .half => (v.truncate 16).zeroExtend 32
  | .word => v

/-- The value the next read of `MEM` at `addr` returns (R53): the environment's own answer where it gives one, its
contents, little-endian, where it does not (R52). -/
def State.readValue (s : State) (addr : Word) (w : Width) : Word :=
  match s.reads with
  | some v :: _ => truncTo w v
  | _ => le32 (s.memBytes addr.toNat w.bytes) 0

/-- The environment sees an access (R14). -/
def State.logAccess (s : State) (a : Access) : State := { s with memLog := s.memLog ++ [a] }

/-- What one read of `MEM` does to the state: the environment sees it, and its answer is used up. -/
def State.afterRead (s : State) (addr : Word) (w : Width) : State :=
  { s.logAccess ⟨.read, addr, w, s.readValue addr w⟩ with reads := s.reads.tail }

/-- `MemRead(addr, n)` (R14, R53, R54): exactly one read access. -/
def memRead (s : State) (addr : Word) (w : Width) : Word × State :=
  (s.readValue addr w, s.afterRead addr w)

/-- `MemWrite(addr, n, v)` (R14, R53, R54): exactly one write access; byte `k` of `v` goes to `addr + k` (R52). -/
def memWrite (s : State) (addr : Word) (w : Width) (v : Word) : State :=
  { s.logAccess ⟨.write, addr, w, v⟩ with mem := s.mem.store addr.toNat (bytesLe v w.bytes) }

/-- A read-modify-write class (R54, R56): one 4-byte read, then one 4-byte write to the same address. -/
def readModifyWrite (s : State) (addr : Word) (f : Word → Word) : State :=
  let r := memRead s addr .word
  memWrite r.2 addr .word (f r.1)

/-! ## The receive buffer -/

/-- Byte `i` of `RXBUF`; a free value where nothing has been received into it yet. -/
def State.rxByte (s : State) (i : Nat) : Byte := (s.rxbuf.get? i).getD (Config.rxbufInit i)

/-- `RXBUF[lo .. hi)`. -/
def State.rxBytes (s : State) (lo hi : Nat) : List Byte :=
  (List.range (hi - lo)).map fun k => s.rxByte (lo + k)

/-- `start_receive()` (R41). -/
def State.startReceive (s : State) : State := { s with wp := 0, rxa := true }

/-- `stop_receive()` (R42). -/
def State.stopReceive (s : State) : State := { s with rxa := false }

/-- The write position before a byte is stored: a full buffer wraps (R43). -/
def State.storeAt (s : State) : Nat := if s.wp = Config.rxCap then 0 else s.wp

/-- A received byte is stored, and the write position moves on (R43). -/
def State.storeRx (s : State) (b : Byte) : State :=
  { s with rxbuf := s.rxbuf.set s.storeAt b, wp := s.storeAt + 1 }

/-- Byte arrival (R43). -/
def State.byteArrives (s : State) (b : Byte) : State :=
  if s.rxa then
    let s1 := s.storeRx b
    if s1.wp = Config.rxCap then s1.raiseTransferComplete else s1
  else s

/-! ## The registry (42_dispatcher.md) -/

/-- `REGN` (R29). -/
def State.regn (s : State) : Nat := s.reg.length

/-- `register(key, handler)` (R141): a key that is too long and a full registry are silently ignored. -/
def State.registerHandler (s : State) (key : List Byte) (h : HandlerId) : State :=
  if key.length > Config.keyMax then s
  else if s.regn = Config.regSlots then s
  else { s with reg := s.reg ++ [⟨key, h⟩] }

/-- `Lookup(key)` (R143): the least index of an entry with exactly this key. -/
def lookupSlot (reg : List RegEntry) (key : List Byte) : Option Nat :=
  reg.findIdx? (fun e => e.key == key)

/-- The entry `Lookup` finds (R128). -/
def lookup (reg : List RegEntry) (key : List Byte) : Option RegEntry :=
  (lookupSlot reg key).bind fun k => reg[k]?

/-! ## Start and restart (40_receive_intake.md) -/

/-- `start()` (R100). -/
def State.start (s : State) : State :=
  ({ s with cur := 0, err := false } : State).startReceive.dropEvents

/-- `restart()` (R101). -/
def State.restart (s : State) : State := s.stopReceive.start

/-! ## The Transmit Path and the handshake (44_transmit_resync.md) -/

/-- The bytes `data[0 .. size)` that are sent (R170); a byte past the end of the data is a free value. -/
def State.sentData (s : State) (size : Half) (data : List Byte) : List Byte :=
  data.take size.toNat ++
    (List.range (size.toNat - data.length)).map fun k => Config.pastEnd (s.free + k)

/-- `TxBytes(bytes)` (R15). -/
def State.txBytes (s : State) (bytes : List Byte) : State := { s with tx := s.tx ++ bytes }

/-- `Transmit(data, size)` (R170): reception is restarted, `TXF` is set, and the frame of R80 is sent. -/
def transmit (s : State) (size : Half) (data : List Byte) : State :=
  let sent := s.sentData size data
  let s1 := s.restart.markTransmitted.txBytes (envelope size sent (Config.crc16 sent))
  { s1 with free := s.free + (size.toNat - data.length) }

/-- `ResyncHandshake()` (R173). -/
def handshake (s : State) : State := (transmit s 2 Config.ackData).clearTransmitted

/-- A reply of `n` bytes of a result (R163). -/
def replyWith (s : State) (w : Width) (v : Word) : State :=
  transmit s (BitVec.ofNat 16 w.bytes) (bytesLe v w.bytes)

/-- A read class (R151 to R153): one read, then the reply. -/
def readAndReply (s : State) (addr : Word) (w : Width) : State :=
  let r := memRead s addr w
  replyWith r.2 w r.1

/-! ## Outcomes of the parser and the caller's action on each (R180; 40_receive_intake.md R104 to R106)

These are the block's exceptions. Taking one is one operation per outcome; the entry to the latched state saves
nothing and changes `ERR` alone (R190), and the way back is the restart inside the handshake or `start()` (R192). -/

/-- The parser returns an outcome (R120). -/
def State.report (s : State) (o : ParseOutcome) : State := { s with outcome := some o }

/-- The event step ends. -/
def State.endEvent (s : State) : State := { s with phase := .rest }

/-- `NeedMoreBytes(n)` (R106): nothing is written, the loop ends. -/
def State.needMoreBytes (s : State) (n : Nat) : State := (s.report (.needMoreBytes n)).endEvent

/-- `Sync` (R106): the caller writes nothing, the loop ends. -/
def State.syncOutcome (s : State) : State := (s.report .sync).endEvent

/-- `TransportError` (R105): `ERR <- 1`, the cursor is not changed, the loop ends. -/
def State.transportError (s : State) : State := ((s.report .transportError).latch).endEvent

/-- `FormatError(consumed)` (R104): the cursor skips the frame, the loop goes on. -/
def State.formatError (s : State) (consumed : Nat) (cause : FormatCause) : State :=
  { s.report (.formatError consumed cause) with cur := s.cur + consumed }

/-- `Consumed(n)` (R104): the cursor moves past the frame, the loop goes on. -/
def State.consumed (s : State) (ctx : FrameCtx) : State :=
  { s.report (.consumed ctx.total) with cur := s.cur + ctx.total, phase := .parse ctx.wp }

/-- The fill position the running event step sampled. -/
def State.sampledWp (s : State) : Nat :=
  match s.phase with
  | .parse wp => wp
  | .tail wp => wp
  | .handler _ _ ctx => ctx.wp
  | .uplink _ _ ctx => ctx.wp
  | .returned ctx => ctx.wp
  | .rest => s.wp
  | .ackDue => s.wp

/-- Step 9 (R129, R145): a handler is to be run on a body. -/
def State.invoke (s : State) (h : HandlerId) (body : List Byte) (total : Nat) : State :=
  { s with phase := .handler h body ⟨total, s.sampledWp⟩ }

/-- Steps 10 and 11 (R131, R132): a transmission turns `Consumed` into `Sync`. -/
def State.parserReturn (s : State) (ctx : FrameCtx) : State :=
  if s.txf then s.clearTransmitted.syncOutcome else s.consumed ctx

end Sys2Proof.Machine
end

