-- ==== Sys2Proof/Machine/Link.lean ====
section
/-! DEFINITION. The meanings of the link items (41_frame_parser.md; 40_receive_intake.md R103): what the parser does
once it has read the item at the cursor, with the caller's action on the outcome. -/

namespace Sys2Proof.Machine

/-- `FRAME`: steps 5 to 9 of the parser (R125 to R129): CRC, colon, key length, lookup, and the handler is invoked.
Steps 10 and 11 follow when it has returned (`State.parserReturn`). -/
def execFrame (payload : List Byte) (crc : Half) (s : State) : Host.Outcome State Fault Refusal :=
  let total := payload.length + 4
  if Config.crc16 payload ≠ crc then .next s.transportError
  else
    match colonIndex payload with
    | none => .next (s.formatError total .noColon)
    | some colon =>
      if colon > Config.keyMax then .next (s.formatError total .keyTooLong)
      else
        match lookup s.reg (keyOf payload colon) with
        | none => .next (s.formatError total .noHandler)
        | some entry => .next (s.invoke entry.handler (bodyOf payload colon) total)

/-- `SYNC`: step 2 of the parser (R121): the handshake, outcome `Sync`. -/
def execSync (s : State) : Host.Outcome State Fault Refusal :=
  .next (handshake s).syncOutcome

/-- `SYNC4`: the handshake of the tail inspection (R103), which ends the event step. -/
def execSync4 (s : State) : Host.Outcome State Fault Refusal :=
  .next (handshake s).endEvent

/-- `ILLEGAL_SIZE`: step 3 of the parser (R122): outcome `TransportError`, whichever of the two sizes it is. -/
def execIllegalSize (_size : Half) (s : State) : Host.Outcome State Fault Refusal :=
  .next s.transportError

end Sys2Proof.Machine
end

