-- ==== Sys2Proof/Machine/RegRead.lean ====
section
/-! DEFINITION. The read classes of the Register-Access Handler (43_regaccess.md, section 2). -/

namespace Sys2Proof.Machine

/-- `RD32` (R151): one 4-byte read, then a reply of 4 bytes. -/
def execRd32 (addr : Word) (s : State) : Host.Outcome State Fault Refusal :=
  .next (readAndReply s (target addr) .word)

/-- `RD8` (R152): one 1-byte read, then a reply of 1 byte. -/
def execRd8 (addr : Word) (s : State) : Host.Outcome State Fault Refusal :=
  .next (readAndReply s (target addr) .byte)

/-- `RD16` (R153): one 2-byte read, then a reply of 2 bytes. -/
def execRd16 (addr : Word) (s : State) : Host.Outcome State Fault Refusal :=
  .next (readAndReply s (target addr) .half)

end Sys2Proof.Machine
end

