-- ==== Sys2Proof/Machine/RegWrite.lean ====
section
/-! DEFINITION. The silent classes of the Register-Access Handler (43_regaccess.md, sections 3 to 7). -/

namespace Sys2Proof.Machine

/-- `SETB` (R154): a 4-byte read-modify-write that sets bit `idx`; no access where `idx` is above 31. -/
def execSetb (addr : Word) (idx : Byte) (s : State) : Host.Outcome State Fault Refusal :=
  if bitIndexOk idx then .next (readModifyWrite s (target addr) (setBitOf idx)) else .next s

/-- `WR8` (R155): one 1-byte write. -/
def execWr8 (addr : Word) (imm8 : Byte) (s : State) : Host.Outcome State Fault Refusal :=
  .next (memWrite s (target addr) .byte (zext8 imm8))

/-- `CLRB` (R156): a 4-byte read-modify-write that clears bit `idx`; no access where `idx` is above 31. -/
def execClrb (addr : Word) (idx : Byte) (s : State) : Host.Outcome State Fault Refusal :=
  if bitIndexOk idx then .next (readModifyWrite s (target addr) (clearBitOf idx)) else .next s

/-- `WR16` (R157): one 2-byte write. -/
def execWr16 (addr : Word) (imm16 : Half) (s : State) : Host.Outcome State Fault Refusal :=
  .next (memWrite s (target addr) .half (zext16 imm16))

/-- `WR32` (R158): one 4-byte write. -/
def execWr32 (addr : Word) (imm32 : Word) (s : State) : Host.Outcome State Fault Refusal :=
  .next (memWrite s (target addr) .word imm32)

/-- `OR32` (R159): one 4-byte read, then one 4-byte write. -/
def execOr32 (addr : Word) (imm32 : Word) (s : State) : Host.Outcome State Fault Refusal :=
  .next (readModifyWrite s (target addr) (orOf imm32))

/-- `AND32` (R160): one 4-byte read, then one 4-byte write. -/
def execAnd32 (addr : Word) (imm32 : Word) (s : State) : Host.Outcome State Fault Refusal :=
  .next (readModifyWrite s (target addr) (andOf imm32))

/-- `MOD32` (R161): one 4-byte read, then one 4-byte write of `(v & ~mask) | value`. -/
def execMod32 (addr : Word) (mask value : Word) (s : State) : Host.Outcome State Fault Refusal :=
  .next (readModifyWrite s (target addr) (modifyOf mask value))

/-- `NOP` (R162): no access, no reply, no flag. -/
def execNop (_body : List Byte) (s : State) : Host.Outcome State Fault Refusal :=
  .next s

end Sys2Proof.Machine
end

