-- ==== Sys2Proof/Machine/Uplink.lean ====
section
/-! DEFINITION. The meanings of the uplink items, which the block transmits and never decodes
(44_transmit_resync.md). -/

namespace Sys2Proof.Machine

/-- `ACK` (R173): the acknowledgement is sent through the Transmit Path, and the flag that sets is cleared. -/
def execAck (s : State) : Host.Outcome State Fault Refusal :=
  .next (handshake s)

/-- `REPLY` (R170): `Transmit(data, size)`. -/
def execReply (size : Half) (data : List Byte) (s : State) : Host.Outcome State Fault Refusal :=
  .next (transmit s size data)

end Sys2Proof.Machine
end

