-- ==== Sys2Proof/Machine/Dispatch.lean ====
section
/-! DEFINITION. One arm per instruction. -/

namespace Sys2Proof.Machine

def exec (i : Instr) (s : State) : Host.Outcome State Fault Refusal :=
  match i with
  -- link items
  | .frame payload crc => Sys2Proof.Machine.execFrame payload crc s
  | .sync => Sys2Proof.Machine.execSync s
  | .sync4 => Sys2Proof.Machine.execSync4 s
  | .illegalSize size => Sys2Proof.Machine.execIllegalSize size s
  -- uplink items
  | .ack => Sys2Proof.Machine.execAck s
  | .reply size data => Sys2Proof.Machine.execReply size data s
  -- micro-instructions
  | .rd32 addr => Sys2Proof.Machine.execRd32 addr s
  | .rd8 addr => Sys2Proof.Machine.execRd8 addr s
  | .rd16 addr => Sys2Proof.Machine.execRd16 addr s
  | .setb addr idx => Sys2Proof.Machine.execSetb addr idx s
  | .wr8 addr imm8 => Sys2Proof.Machine.execWr8 addr imm8 s
  | .clrb addr idx => Sys2Proof.Machine.execClrb addr idx s
  | .wr16 addr imm16 => Sys2Proof.Machine.execWr16 addr imm16 s
  | .wr32 addr imm32 => Sys2Proof.Machine.execWr32 addr imm32 s
  | .or32 addr imm32 => Sys2Proof.Machine.execOr32 addr imm32 s
  | .and32 addr imm32 => Sys2Proof.Machine.execAnd32 addr imm32 s
  | .mod32 addr mask value => Sys2Proof.Machine.execMod32 addr mask value s
  | .nop body => Sys2Proof.Machine.execNop body s

end Sys2Proof.Machine
end

