-- ==== Sys2Proof/Machine/Agents.lean ====
section
/-! DEFINITION. What the other agents do between event steps, and the beginning of the two event steps
(10_state.md R43 to R47, 40_receive_intake.md R102, R107). -/

namespace Sys2Proof.Machine

/-- The idle event step begins (R102): it is dropped while reception is not active; while latched only the tail is
inspected; a fill position behind the cursor latches the error; otherwise the parse loop begins. -/
def State.beginIdle (s : State) : State :=
  if !s.rxa then s
  else if s.err then { s with phase := .tail s.wp }
  else if s.wp < s.cur then s.latch
  else { s with phase := .parse s.wp }

/-- The transfer-complete event step (R107). -/
def State.transferComplete (s : State) : State :=
  if s.rxa then s.latch else s

/-- An event is taken out of `EVQ` and its step begins (R187). -/
def State.handleEvent (s : State) : Event → State
  | .idle => ({ s with idlePending := false } : State).beginIdle
  | .transferComplete => ({ s with tcPending := false } : State).transferComplete

/-- The engine is given a pending event, if there is one (R45). -/
def State.serve (s : State) (first : Event) : State :=
  match s.nextEvent first with
  | some e => s.handleEvent e
  | none => s

/-- Another bus master or a device changes `MEM` (R56). -/
def State.memChanged (s : State) (cells : List Host.Cell) : State :=
  { s with mem := s.mem.change cells }

/-- One act of another agent. -/
def State.agentStep (s : State) : Input → State
  | .byte b => s.byteArrives b
  | .raiseIdle => s.raiseIdle
  | .serve first => s.serve first
  | .register key h => s.registerHandler key h
  | .start => s.start
  | .memWrite cells => s.memChanged cells

/-- What the coming call of an external handler does; where the environment says nothing it changes nothing, asks for
no transmission and returns. Log entry 10. -/
def State.nextReply (s : State) : HandlerReply := s.handlers.headD ⟨[], [], true⟩

/-- An external handler is called (R145, R146): the body is presented to it, and what it does follows. -/
def State.callExternal (s : State) (h : HandlerId) (body : List Byte) (ctx : FrameCtx) : State :=
  let r := s.nextReply
  { s with
    calls := s.calls ++ [(h, body)]
    handlers := s.handlers.tail
    mem := s.mem.change r.mem
    phase := .uplink r.requests r.returns ctx }

end Sys2Proof.Machine
end

