-- ==== Sys2Proof/Machine/Fetch.lean ====
section
/-! DEFINITION. What the engine finds next, at each of the points an instruction is fetched from, and how it moves on
when the instruction has run. -/

namespace Sys2Proof.Machine

/-- What stands at the engine's fetch point. -/
inductive Fetched where
  /-- An instruction. -/
  | instr (i : Instr)
  /-- A link item that is not all there yet: its shortfall (R120, R123). -/
  | needMore (n : Nat)
  /-- The tail of the filled region is not the doubled marker (R103). -/
  | noMarker
  /-- An external handler is to be called on a body (R146). -/
  | call (h : HandlerId) (body : List Byte) (ctx : FrameCtx)
  /-- The handler has returned to the parser. -/
  | returned (ctx : FrameCtx)
  /-- The external handler does not return (R211 (c)). -/
  | hangs
  /-- Between event steps: an act of another agent, and those after it. -/
  | agent (input : Input) (later : List Input)
  /-- Between event steps, and no agent acts: the block holds its state (R199). -/
  | quiet
  deriving DecidableEq, Repr

/-- A decoder's answer as what is fetched. -/
def Fetched.ofDecoded : Decoded → Fetched
  | .instr i _ => .instr i
  | .needMore n => .needMore n
  | .noMarker => .noMarker

/-- The four bytes at the end of the filled region, or none where it is shorter (R103). -/
def State.tailBytes (s : State) (wp : Nat) : List Byte :=
  if wp < 4 then [] else s.rxBytes (wp - 4) wp

/-- The fetch: a link item from `RXBUF[CUR .. wp)`, the doubled marker from the tail, a micro-instruction from the
body handed to `RA`, an uplink item from what an external handler has still to send. -/
def State.fetch (s : State) : Fetched :=
  match s.phase with
  | .rest =>
    match s.inputs with
    | [] => .quiet
    | i :: later => .agent i later
  | .parse wp => .ofDecoded (decode .link (s.rxBytes s.cur wp))
  | .tail wp => .ofDecoded (decode .tail (s.tailBytes wp))
  | .handler .ra body _ => .ofDecoded (decode .body body)
  | .handler (.ext id) body ctx => .call (.ext id) body ctx
  | .uplink (r :: _) _ _ => .instr (.reply r.size r.data)
  | .uplink [] true ctx => .returned ctx
  | .uplink [] false _ => .hangs
  | .returned ctx => .returned ctx
  | .ackDue => .instr .ack

/-- Where the engine stands after an instruction fetched in phase `p`: the meaning of a link item has said so itself;
a micro-instruction returns to the parser; a transmission is followed by the handler's next one. -/
def State.retire (p : Phase) (t : State) : State :=
  match p with
  | .handler _ _ ctx => { t with phase := .returned ctx }
  | .uplink (_ :: later) ret ctx => { t with phase := .uplink later ret ctx }
  | .ackDue => t.endEvent
  | _ => t

/-- Do something more to a next state. -/
def onNext (f : State → State) : Host.Outcome State Fault Refusal → Host.Outcome State Fault Refusal
  | .next s => .next (f s)
  | .fault r => .fault r
  | .refused r => .refused r

/-- Put bytes into the receive buffer from an index on. -/
def State.placeRx (s : State) (lo : Nat) (bytes : List Byte) : State :=
  { s with rxbuf := s.rxbuf.store lo bytes }

/-- An idle event step is in its parse loop with these bytes from the cursor to the fill position. -/
def State.placeLink (s : State) (bytes : List Byte) : State :=
  { s.placeRx s.cur bytes with
    wp := s.cur + bytes.length, err := false, rxa := true, phase := .parse (s.cur + bytes.length) }

/-- A latched idle event step inspects these bytes, appended to the filled region. -/
def State.placeTail (s : State) (bytes : List Byte) : State :=
  { s.placeRx s.wp bytes with
    wp := s.wp + bytes.length, err := true, rxa := true, phase := .tail (s.wp + bytes.length) }

/-- The parser has handed this body to `RA`, from a frame with the key `"_"` that ends at the fill position. -/
def State.placeBody (s : State) (body : List Byte) : State :=
  let total := (raPayload body).length + 4
  { s with
    wp := s.cur + total, err := false, rxa := true
    phase := .handler .ra body ⟨total, s.cur + total⟩ }

end Sys2Proof.Machine
end

