-- ==== Sys2Proof/Machine/Step.lean ====
section
/-! DEFINITION. One step: the instruction at the fetch point runs, or the parser, the engine or another agent makes
the move that stands next. -/

namespace Sys2Proof.Machine

/-- The step. -/
def step (s : State) : Host.Outcome State Fault Refusal :=
  match s.fetch with
  | .instr i => onNext (State.retire s.phase) (exec i s)
  | .needMore n => .next (s.needMoreBytes n)
  | .noMarker => .next s.endEvent
  | .call h body ctx => .next (s.callExternal h body ctx)
  | .returned ctx => .next (s.parserReturn ctx)
  | .hangs => .fault .handlerHangs
  | .agent input later => .next (({ s with inputs := later } : State).agentStep input)
  | .quiet => .next s

/-- `s` with the instruction of a table word at the point the next step fetches from: the level the word is read at
says which point that is. Log entry 13. -/
def State.withFetchWord (s : State) (nbits w : Nat) : State :=
  match tableLevel nbits w with
  | .link => s.placeLink (tableBytes nbits w)
  | .tail => s.placeTail (tableBytes nbits w)
  | .uplink => { s with phase := .ackDue }
  | .body => s.placeBody (tableBytes nbits w)

end Sys2Proof.Machine
end

