-- ==== Sys2Proof/Safety.lean ====
section
/-! DEFINITION. What counts as a good state, and the words the statements are made of: the invariant of the machine,
and what an operation may have left as it was. -/

namespace Sys2Proof.Machine

/-- What holds of the running event step, by the point it stands at. Before a transmission `CUR` and the frame being
run lie below the sampled fill position, which is `WP`; a transmission has restarted reception (R68). -/
def State.PhaseOk (s : State) : Prop :=
  match s.phase with
  | .rest => s.txf = false
  | .parse wp => s.txf = false ∧ s.err = false ∧ s.rxa = true ∧ s.cur ≤ wp ∧ wp = s.wp
  | .tail wp => s.txf = false ∧ s.err = true ∧ s.rxa = true ∧ wp = s.wp
  | .handler _ _ ctx =>
    s.txf = false ∧ s.err = false ∧ s.rxa = true ∧ 6 ≤ ctx.total ∧ s.cur + ctx.total ≤ ctx.wp ∧ ctx.wp = s.wp
  | .uplink _ _ ctx | .returned ctx =>
    s.err = false ∧ s.rxa = true ∧
      if s.txf then s.cur = 0 ∧ s.wp = 0 ∧ s.idlePending = false ∧ s.tcPending = false
      else 6 ≤ ctx.total ∧ s.cur + ctx.total ≤ ctx.wp ∧ ctx.wp = s.wp
  | .ackDue => s.txf = false

/-- The invariant of the machine. -/
structure State.Inv (s : State) : Prop where
  /-- `MEM` is in its canonical form. -/
  memWf : s.mem.wf = true
  /-- `MEM` has 32-bit addresses (R32). -/
  memRange : ∀ c ∈ s.mem, c.1 < 2 ^ 32
  /-- `RXBUF` is in its canonical form. -/
  rxWf : s.rxbuf.wf = true
  /-- `RXBUF` has `RX_CAP` bytes (R31). -/
  rxRange : ∀ c ∈ s.rxbuf, c.1 < Config.rxCap
  /-- `REGN` is at most 16 (R29). -/
  regCap : s.reg.length ≤ Config.regSlots
  /-- Every registered key has at most 7 bytes (R29). -/
  keyCap : ∀ e ∈ s.reg, e.key.length ≤ Config.keyMax
  /-- `CUR` is in `0 .. RX_CAP` (R22). -/
  curCap : s.cur ≤ Config.rxCap
  /-- `WP` is in `0 .. RX_CAP` (R23). -/
  wpCap : s.wp ≤ Config.rxCap
  /-- While the error is not latched and no transfer-complete event is pending, the cursor is not past the write
  position and the buffer is not full (R22, R43, R45). -/
  behind : s.err = false → s.tcPending = false → s.cur ≤ s.wp ∧ s.wp < Config.rxCap
  /-- Before the first start nothing has been received and no event is pending (R26, R201). -/
  stopped : s.rxa = false → s.cur = 0 ∧ s.wp = 0 ∧ s.err = false ∧ s.idlePending = false ∧ s.tcPending = false ∧
    (s.phase = .rest ∨ s.phase = .ackDue)
  /-- The running event step is in order; between event steps `TXF = 0` (R25). -/
  phaseOk : s.PhaseOk

/-- Nothing but `MEM`, the record of accesses to it and the environment's answers differs. -/
def SameButMem (s t : State) : Prop :=
  t = { s with mem := t.mem, memLog := t.memLog, reads := t.reads }

/-- Reception has been restarted (R100, R101, R170): `CUR`, `WP`, `ERR` are zero, no event is pending, reception is
active. -/
def Restarted (t : State) : Prop :=
  t.cur = 0 ∧ t.wp = 0 ∧ t.err = false ∧ t.rxa = true ∧ t.idlePending = false ∧ t.tcPending = false

/-- Nothing but what a transmission writes differs: the restart's registers, `TXF`, `TX` and the count of free
values. -/
def SameButLink (s t : State) : Prop :=
  t = { s with
    cur := t.cur, wp := t.wp, err := t.err, rxa := t.rxa, idlePending := t.idlePending, tcPending := t.tcPending
    txf := t.txf, tx := t.tx, free := t.free }

/-- The `n` bytes from an address on are the only bytes of `MEM` that may differ. -/
def MemSameOutside (s t : State) (a n : Nat) : Prop :=
  ∀ x, x < a ∨ a + n ≤ x → t.memByte x = s.memByte x

/-- The 32-bit word of `MEM` at an address, little-endian (R52). -/
def State.memWord (s : State) (a : Nat) : Word := le32 (s.memBytes a 4) 0

/-- The receive buffer holds these bytes from an index on. -/
def State.RxHolds (s : State) (lo : Nat) (bytes : List Byte) : Prop :=
  s.rxBytes lo (lo + bytes.length) = bytes

/-- How many transmissions external handlers have still to make: the running one, and those the script holds. -/
def State.sendsDue (s : State) : Nat :=
  (match s.phase with
    | .uplink requests _ _ => requests.length
    | _ => 0) + (s.handlers.map fun r => r.requests.length).sum

/-- The machine goes from `s` to `t` in `k` steps. -/
def Steps (k : Nat) (s t : State) : Prop := Sys2Proof.core.run k s = .next t

end Sys2Proof.Machine
end

