-- ==== Sys2Proof/Certificates/Slice0/Obligations.lean ====
section
/-! DEFINITION. The statements for the provers. Each docstring names the rules of spec/ it formalises. -/

open Sys2Proof Sys2Proof.Machine

/-! ## Encodings (30_encoding.md) -/

/-- R71, R77, R78, R80, R83 to R88, R92: what the decoder of an instruction's level reads from the bytes the encoder
writes is the instruction, with every operand; at the link level and on the uplink the bytes that follow are handed
on. An uplink `REPLY` whose bytes are those of the acknowledgement cannot be told from it (log entry 18). -/
def Obligations.DecodeOfEncodeIsTheInstruction : Prop :=
  ∀ (i : Instr) (rest : List Byte), i.wf = true →
    match i.level with
    | .link => decode .link (encode i ++ rest) = .instr i rest
    | .tail => decode .tail (encode i) = .instr i []
    | .body => decode .body (encode i) = .instr i []
    | .uplink =>
      (i = .ack ∨ encode i ≠ encode .ack → decode .uplink (encode i ++ rest) = .instr i rest) ∧
      (encode i = encode .ack → decode .uplink (encode i ++ rest) = .instr .ack rest)

/-- R83 to R89: every body a frame can carry is a well-formed micro-instruction, and no bit of it is lost. -/
def Obligations.EveryBodyIsAMicroInstruction : Prop :=
  ∀ b : List Byte, b.length ≤ maxBody →
    (decodeBody b).wf = true ∧ (decodeBody b).level = .body ∧ encode (decodeBody b) = b

/-- R73: a link item that is read is well formed, and it is the bytes at the front. -/
def Obligations.LinkItemIsTheBytesAtTheFront : Prop :=
  ∀ (b rest : List Byte) (i : Instr), decode .link b = .instr i rest →
    i.wf = true ∧ i.level = .link ∧ encode i ++ rest = b

/-- R88: the no-op class is exactly the bodies shorter than an address word and those whose length and operation id
are none of the eleven pairs of R86. -/
def Obligations.NopIsEveryUnlistedPair : Prop :=
  ∀ b : List Byte, decodeBody b = .nop b ↔
    b.length < 4 ∨
    (b.length, (opField (le32 b 0)).toNat) ∉
      [(4, 0), (4, 1), (4, 2), (5, 0), (5, 1), (5, 2), (6, 0), (8, 0), (8, 1), (8, 2), (12, 0)]

/-- R77, R78, R86, R89, R93 and the frames of 95_test_vectors.md: words written out from the spec's encodings decode
to the instructions they stand for. The bytes of the uplink reply are R80's; that they are read back as `REPLY` is the
model's own uplink reader (log entry 18): the spec has none. That the last word, of key 35, is a no-op is the spec's
decision D6 (conflict C1). -/
def Obligations.WordsOfTheSpecDecode : Prop :=
  decode .link [0x55, 0xAA] = .instr .sync [] ∧
  decode .link [0x01, 0x00, 0x41] = .instr (.illegalSize 1) [0x41] ∧
  decode .link [0x04, 0x00, 0x7A, 0x7A, 0x3A, 0x31, 0xFB, 0x7D] =
    .instr (.frame [0x7A, 0x7A, 0x3A, 0x31] 0x7DFB) [] ∧
  decode .tail [0x55, 0xAA, 0x55, 0xAA] = .instr .sync4 [] ∧
  decode .uplink [0x01, 0x00, 0x78, 0x6F, 0x1E] = .instr (.reply 1 [0x78]) [] ∧
  decode .body [0x01, 0x10, 0x00, 0x00] = .instr (.rd8 0x1000) [] ∧
  decode .body [0x02, 0x10, 0x00, 0x00, 0x07] = .instr (.clrb 0x1000 7) [] ∧
  decode .body [0x00, 0x10, 0x00, 0x00, 0x0F, 0x00, 0x00, 0x00, 0x05, 0x00, 0x00, 0x00] =
    .instr (.mod32 0x1000 0x0F 0x05) [] ∧
  decode .body [0x03, 0x10, 0x00, 0x00, 0x44, 0x33, 0x22, 0x11] =
    .instr (.nop [0x03, 0x10, 0x00, 0x00, 0x44, 0x33, 0x22, 0x11]) []

/-- R120, R123 (source property 3): of a frame cut off after `k` bytes the decoder says how many bytes are missing to
its next decision: to the size field while that is incomplete, then to the whole frame. -/
def Obligations.CutOffFrameReportsItsShortfall : Prop :=
  ∀ (payload : List Byte) (crc : Half) (k : Nat), (Instr.frame payload crc).wf = true → k < payload.length + 4 →
    decode .link ((encode (.frame payload crc)).take k) =
      .needMore (if k < 2 then 2 - k else payload.length + 4 - k)

/-! ## Frames (41_frame_parser.md) -/

/-- R125, R105: a CRC that does not match is a `TransportError`: the error is latched, the event step ends, and
nothing else changes. -/
def Obligations.WrongCrcLatches : Prop :=
  ∀ (payload : List Byte) (crc : Half) (s : State), Config.crc16 payload ≠ crc →
    exec (.frame payload crc) s =
      .next { s with err := true, outcome := some .transportError, phase := .rest }

/-- Source property 2 (R8 P2, R125): one bit flipped in the payload or in the CRC field of a good frame is a
`TransportError`. -/
def Obligations.SingleBitFlipLatches : Prop :=
  ∀ (payload : List Byte) (s : State),
    (∀ q, Config.DiffersInOneBit payload q →
      exec (.frame q (Config.crc16 payload)) s =
        .next { s with err := true, outcome := some .transportError, phase := .rest }) ∧
    (∀ k : Fin 16,
      exec (.frame payload (Config.crc16 payload ^^^ (1#16 <<< k.val))) s =
        .next { s with err := true, outcome := some .transportError, phase := .rest })

/-- R126, R127, R128, R104: with a good CRC, a payload without a colon, with a key of more than 7 bytes before its
first colon, or with a key no entry has, is skipped: the cursor moves past the frame, `ERR` stays, the loop goes on,
and nothing else changes. The sub-cause is the one R135 allows a model to carry. -/
def Obligations.MalformedFrameIsSkipped : Prop :=
  ∀ (payload : List Byte) (s : State),
    ((∀ b ∈ payload, b ≠ Config.sep) →
      exec (.frame payload (Config.crc16 payload)) s =
        .next { s with
          cur := s.cur + (payload.length + 4)
          outcome := some (.formatError (payload.length + 4) .noColon) }) ∧
    (∀ key body, payload = key ++ Config.sep :: body → (∀ b ∈ key, b ≠ Config.sep) → key.length > 7 →
      exec (.frame payload (Config.crc16 payload)) s =
        .next { s with
          cur := s.cur + (payload.length + 4)
          outcome := some (.formatError (payload.length + 4) .keyTooLong) }) ∧
    (∀ key body, payload = key ++ Config.sep :: body → (∀ b ∈ key, b ≠ Config.sep) → key.length ≤ 7 →
      (∀ e ∈ s.reg, e.key ≠ key) →
      exec (.frame payload (Config.crc16 payload)) s =
        .next { s with
          cur := s.cur + (payload.length + 4)
          outcome := some (.formatError (payload.length + 4) .noHandler) })

/-- R129, R143: with a good CRC and a registered key, the handler of the first entry with that key is to be run on
the bytes after the first colon; nothing else changes before it runs. The key may be empty, the body too, and the
body may hold colons. -/
def Obligations.RegisteredKeyInvokesItsHandler : Prop :=
  ∀ (key body : List Byte) (k : Nat) (e : RegEntry) (s : State),
    (∀ b ∈ key, b ≠ Config.sep) → key.length ≤ 7 →
    s.reg[k]? = some e → e.key = key → (∀ j, j < k → ∀ e', s.reg[j]? = some e' → e'.key ≠ key) →
    exec (.frame (key ++ Config.sep :: body) (Config.crc16 (key ++ Config.sep :: body))) s =
      .next { s with phase := .handler e.handler body ⟨key.length + 1 + body.length + 4, s.sampledWp⟩ }

/-- R143: `Lookup` answers the least index of an entry with exactly the key, and none where there is no such
entry. -/
def Obligations.LookupTakesTheLeastIndex : Prop :=
  ∀ (reg : List RegEntry) (key : List Byte),
    (∀ k, lookupSlot reg key = some k ↔
      (∃ e, reg[k]? = some e ∧ e.key = key) ∧ ∀ j, j < k → ∀ e, reg[j]? = some e → e.key ≠ key) ∧
    (lookupSlot reg key = none ↔ ∀ e ∈ reg, e.key ≠ key)

/-- R122: a size field of 0 or 1 at a frame boundary is read as an illegal size, whatever follows it, and is a
`TransportError`. -/
def Obligations.IllegalSizeLatches : Prop :=
  ∀ (size : Half) (rest : List Byte) (s : State), size.toNat < 2 →
    decode .link (bytesLe size 2 ++ rest) = .instr (.illegalSize size) rest ∧
    exec (.illegalSize size) s =
      .next { s with err := true, outcome := some .transportError, phase := .rest }

/-- R131, R132: a transmission made by the handler turns `Consumed` into `Sync`; otherwise the cursor moves past the
frame and the loop goes on. -/
def Obligations.TransmissionTurnsConsumedIntoSync : Prop :=
  ∀ (s : State) (ctx : FrameCtx), s.phase = .returned ctx →
    (s.txf = true → step s = .next { s with txf := false, outcome := some .sync, phase := .rest }) ∧
    (s.txf = false →
      step s = .next { s with
        cur := s.cur + ctx.total, outcome := some (.consumed ctx.total), phase := .parse ctx.wp })

/-- R120, R123, R106: an item that is not all there ends the event step and changes nothing but the outcome, which
carries the shortfall. -/
def Obligations.IncompleteItemChangesNothing : Prop :=
  ∀ (s : State) (wp : Nat), s.phase = .parse wp → s.cur ≤ wp →
    (wp - s.cur < 2 →
      step s = .next { s with outcome := some (.needMoreBytes (2 - (wp - s.cur))), phase := .rest }) ∧
    (2 ≤ wp - s.cur →
      legalSize (s.rxByte (s.cur + 1) ++ s.rxByte s.cur : Half).toNat = true →
      wp - s.cur < (s.rxByte (s.cur + 1) ++ s.rxByte s.cur : Half).toNat + 4 →
      step s = .next { s with
        outcome := some (.needMoreBytes
          ((s.rxByte (s.cur + 1) ++ s.rxByte s.cur : Half).toNat + 4 - (wp - s.cur)))
        phase := .rest })

/-- R124: what the parser does depends on no byte of `RXBUF` outside the item at the cursor, and of an item that is not
all there on no byte but the first two (its size field), of those that lie below the fill position; and it writes no
byte of `RXBUF`. -/
def Obligations.ParserReadsOnlyTheItem : Prop :=
  ∀ (s : State) (buf : Memory) (wp : Nat), s.phase = .parse wp →
    (∀ i rest, decode .link (s.rxBytes s.cur wp) = .instr i rest →
      (∀ k, k < (encode i).length → ({ s with rxbuf := buf } : State).rxByte (s.cur + k) = s.rxByte (s.cur + k)) →
      ∃ t, step s = .next t ∧ t.rxbuf = s.rxbuf ∧ step { s with rxbuf := buf } = .next { t with rxbuf := buf }) ∧
    (∀ n, decode .link (s.rxBytes s.cur wp) = .needMore n →
      (∀ k, k < 2 → s.cur + k < wp →
        ({ s with rxbuf := buf } : State).rxByte (s.cur + k) = s.rxByte (s.cur + k)) →
      ∃ t, step s = .next t ∧ t.rxbuf = s.rxbuf ∧ step { s with rxbuf := buf } = .next { t with rxbuf := buf })

/-- Source property 4 (R135, R104): a frame with a good CRC that is malformed is skipped, and what the parser reads
next is the item right behind it. -/
def Obligations.ItemBehindASkippedFrameIsRead : Prop :=
  ∀ (s : State) (wp : Nat) (payload : List Byte) (j : Instr),
    s.phase = .parse wp → legalSize payload.length = true → j.wf = true → j.level = .link →
    s.RxHolds s.cur (encode (frameOf payload) ++ encode j) →
    s.cur + (encode (frameOf payload) ++ encode j).length ≤ wp →
    ((∀ b ∈ payload, b ≠ Config.sep) ∨
      ∃ key body, payload = key ++ Config.sep :: body ∧ (∀ b ∈ key, b ≠ Config.sep) ∧
        (key.length > 7 ∨ ∀ e ∈ s.reg, e.key ≠ key)) →
    ∃ t, step s = .next t ∧ t.cur = s.cur + payload.length + 4 ∧ t.err = s.err ∧ t.tx = s.tx ∧ t.fetch = .instr j

/-! ## The Transmit Path and the handshake (44_transmit_resync.md) -/

/-- R173, R82: the handshake, run for a marker at an item boundary (R121), for the doubled marker at the tail (R103)
and for an acknowledgement that is due, restarts reception, sends the framed `"OK"` and leaves `TXF` clear. -/
def Obligations.HandshakeAcknowledgesAndRestarts : Prop :=
  ∀ s : State,
    exec .sync s = .next { s with
      cur := 0, wp := 0, err := false, txf := false, rxa := true, idlePending := false, tcPending := false
      tx := s.tx ++ ([0x02, 0x00, 0x4F, 0x4B] ++ bytesLe (Config.crc16 [0x4F, 0x4B]) 2)
      outcome := some .sync, phase := .rest } ∧
    exec .sync4 s = .next { s with
      cur := 0, wp := 0, err := false, txf := false, rxa := true, idlePending := false, tcPending := false
      tx := s.tx ++ ([0x02, 0x00, 0x4F, 0x4B] ++ bytesLe (Config.crc16 [0x4F, 0x4B]) 2)
      phase := .rest } ∧
    exec .ack s = .next { s with
      cur := 0, wp := 0, err := false, txf := false, rxa := true, idlePending := false, tcPending := false
      tx := s.tx ++ ([0x02, 0x00, 0x4F, 0x4B] ++ bytesLe (Config.crc16 [0x4F, 0x4B]) 2) }

/-- R174: a second handshake right after the first leaves the same state but for a second acknowledgement, and neither
changes `MEM` or the registry. That the acknowledgement is framed, and so has six bytes (R173), is the spec's decision
D7 (log entry 20). -/
def Obligations.HandshakeIsIdempotent : Prop :=
  ∀ s : State, ∃ t u, exec .ack s = .next t ∧ exec .ack t = .next u ∧
    u = { t with tx := u.tx } ∧ (∃ bytes, u.tx = t.tx ++ bytes ∧ t.tx = s.tx ++ bytes ∧ bytes.length = 6) ∧
    u.mem = s.mem ∧ u.reg = s.reg

/-- R170: `Transmit(data, size)` restarts reception, sets `TXF` and sends size, the bytes `0 .. size-1` of the data, and
their CRC. It checks neither operand, so every 16-bit size is sent. -/
def Obligations.TransmitRestartsAndSendsAFrame : Prop :=
  ∀ (size : Half) (data : List Byte) (s : State), size.toNat ≤ data.length →
    exec (.reply size data) s = .next { s with
      cur := 0, wp := 0, err := false, txf := true, rxa := true, idlePending := false, tcPending := false
      tx := s.tx ++
        (bytesLe size 2 ++ data.take size.toNat ++ bytesLe (Config.crc16 (data.take size.toNat)) 2) }

/-- Log entry 11 (the model's own, R170 says nothing of it): where the data holds fewer than `size` bytes, `size` bytes
are sent all the same, the data first; those behind it are free values. The rest is as in R170. -/
def Obligations.TransmitPastTheEndSendsFreeBytes : Prop :=
  ∀ (size : Half) (data : List Byte) (s : State), data.length < size.toNat → ∃ free : List Byte,
    data.length + free.length = size.toNat ∧
    exec (.reply size data) s = .next { s with
      cur := 0, wp := 0, err := false, txf := true, rxa := true, idlePending := false, tcPending := false
      tx := s.tx ++ (bytesLe size 2 ++ (data ++ free) ++ bytesLe (Config.crc16 (data ++ free)) 2)
      free := s.free + free.length }

/-! ## Read classes (43_regaccess.md) -/

/-- R151, R152, R153, R163: one read of the declared width at the masked address, which the environment sees, and
then a reply of exactly that many bytes of the value, through the Transmit Path; `MEM` and everything else is
unchanged. -/
def Obligations.ReadsReplyWithTheirValue : Prop :=
  ∀ (addr : Word) (s : State),
    (∀ v, v = s.readValue (addr &&& 0xFFFFFFFC) .word →
      exec (.rd32 addr) s = .next { s with
        cur := 0, wp := 0, err := false, txf := true, rxa := true, idlePending := false, tcPending := false
        tx := s.tx ++ ([0x04, 0x00] ++ bytesLe v 4 ++ bytesLe (Config.crc16 (bytesLe v 4)) 2)
        memLog := s.memLog ++ [⟨.read, addr &&& 0xFFFFFFFC, .word, v⟩]
        reads := s.reads.tail }) ∧
    (∀ v, v = s.readValue (addr &&& 0xFFFFFFFC) .byte →
      exec (.rd8 addr) s = .next { s with
        cur := 0, wp := 0, err := false, txf := true, rxa := true, idlePending := false, tcPending := false
        tx := s.tx ++ ([0x01, 0x00] ++ bytesLe v 1 ++ bytesLe (Config.crc16 (bytesLe v 1)) 2)
        memLog := s.memLog ++ [⟨.read, addr &&& 0xFFFFFFFC, .byte, v⟩]
        reads := s.reads.tail }) ∧
    (∀ v, v = s.readValue (addr &&& 0xFFFFFFFC) .half →
      exec (.rd16 addr) s = .next { s with
        cur := 0, wp := 0, err := false, txf := true, rxa := true, idlePending := false, tcPending := false
        tx := s.tx ++ ([0x02, 0x00] ++ bytesLe v 2 ++ bytesLe (Config.crc16 (bytesLe v 2)) 2)
        memLog := s.memLog ++ [⟨.read, addr &&& 0xFFFFFFFC, .half, v⟩]
        reads := s.reads.tail })

/-- R53, R14: the value of a read is the environment's to say: it is the environment's answer, cut to the width,
where one is given, and otherwise the bytes `MEM` holds, least significant first, with nothing above them. -/
def Obligations.ReadValueIsTheAnswerOrTheContents : Prop :=
  ∀ (s : State) (a : Word) (w : Width) (k : Nat), k < 4 →
    (∀ v later, s.reads = some v :: later →
      (s.readValue a w).extractLsb' (8 * k) 8 = if k < w.bytes then v.extractLsb' (8 * k) 8 else 0) ∧
    (s.reads.head? = none ∨ s.reads.head? = some none →
      (s.readValue a w).extractLsb' (8 * k) 8 = if k < w.bytes then s.memByte (a.toNat + k) else 0)

/-- R52: `MEM` is little-endian. Where the environment leaves a location alone, a narrow read returns the low bits of
the wide one, and a narrow write changes only the low bits of the word. -/
def Obligations.TargetMemoryIsLittleEndian : Prop :=
  ∀ (s : State) (a : Word), a &&& 3 = 0 →
    (s.reads.head? = none ∨ s.reads.head? = some none →
      s.readValue a .byte = s.readValue a .word &&& 0xFF ∧
      s.readValue a .half = s.readValue a .word &&& 0xFFFF) ∧
    (∀ v : Byte, ∃ t, exec (.wr8 a v) s = .next t ∧
      t.memWord a.toNat = (s.memWord a.toNat &&& 0xFFFFFF00) ||| v.zeroExtend 32) ∧
    (∀ v : Half, ∃ t, exec (.wr16 a v) s = .next t ∧
      t.memWord a.toNat = (s.memWord a.toNat &&& 0xFFFF0000) ||| v.zeroExtend 32)

/-! ## Write classes -/

/-- R155, R157, R158: exactly one write of the declared width at the masked address, no read and no reply; every
other byte of `MEM`, and everything else, is unchanged. That byte `k` of a wider operand goes to `addr + k` is the byte
order of `MEM`, R52, the spec's decision D4 (log entry 20). -/
def Obligations.WritesStoreExactlyTheirBytes : Prop :=
  ∀ (addr : Word) (s : State),
    (∀ v : Byte, ∃ t, exec (.wr8 addr v) s = .next t ∧
      (∀ k, k < 1 → t.memByte ((addr &&& 0xFFFFFFFC).toNat + k) = v.extractLsb' (8 * k) 8) ∧
      MemSameOutside s t (addr &&& 0xFFFFFFFC).toNat 1 ∧
      t = { s with
        mem := t.mem
        memLog := s.memLog ++ [⟨.write, addr &&& 0xFFFFFFFC, .byte, v.zeroExtend 32⟩] }) ∧
    (∀ v : Half, ∃ t, exec (.wr16 addr v) s = .next t ∧
      (∀ k, k < 2 → t.memByte ((addr &&& 0xFFFFFFFC).toNat + k) = v.extractLsb' (8 * k) 8) ∧
      MemSameOutside s t (addr &&& 0xFFFFFFFC).toNat 2 ∧
      t = { s with
        mem := t.mem
        memLog := s.memLog ++ [⟨.write, addr &&& 0xFFFFFFFC, .half, v.zeroExtend 32⟩] }) ∧
    (∀ v : Word, ∃ t, exec (.wr32 addr v) s = .next t ∧
      (∀ k, k < 4 → t.memByte ((addr &&& 0xFFFFFFFC).toNat + k) = v.extractLsb' (8 * k) 8) ∧
      MemSameOutside s t (addr &&& 0xFFFFFFFC).toNat 4 ∧
      t = { s with
        mem := t.mem
        memLog := s.memLog ++ [⟨.write, addr &&& 0xFFFFFFFC, .word, v⟩] })

/-- R154: with an index of at most 31, one 4-byte read and then one 4-byte write of the value read with that bit set;
with a greater index no access and no change. No other byte of `MEM` and nothing else changes. -/
def Obligations.SetBitSetsOneBit : Prop :=
  ∀ (addr : Word) (idx : Byte) (s : State) (v : Word), v = s.readValue (addr &&& 0xFFFFFFFC) .word →
    (idx.toNat ≤ 31 → ∃ t, exec (.setb addr idx) s = .next t ∧
      (∀ j, j < 32 → (t.memWord (addr &&& 0xFFFFFFFC).toNat).getLsbD j = (v.getLsbD j || j == idx.toNat)) ∧
      MemSameOutside s t (addr &&& 0xFFFFFFFC).toNat 4 ∧
      t = { s with
        mem := t.mem
        memLog := s.memLog ++ [⟨.read, addr &&& 0xFFFFFFFC, .word, v⟩,
          ⟨.write, addr &&& 0xFFFFFFFC, .word, t.memWord (addr &&& 0xFFFFFFFC).toNat⟩]
        reads := s.reads.tail }) ∧
    (31 < idx.toNat → exec (.setb addr idx) s = .next s)

/-- R156: as R154, with the bit cleared. -/
def Obligations.ClearBitClearsOneBit : Prop :=
  ∀ (addr : Word) (idx : Byte) (s : State) (v : Word), v = s.readValue (addr &&& 0xFFFFFFFC) .word →
    (idx.toNat ≤ 31 → ∃ t, exec (.clrb addr idx) s = .next t ∧
      (∀ j, j < 32 → (t.memWord (addr &&& 0xFFFFFFFC).toNat).getLsbD j = (v.getLsbD j && j != idx.toNat)) ∧
      MemSameOutside s t (addr &&& 0xFFFFFFFC).toNat 4 ∧
      t = { s with
        mem := t.mem
        memLog := s.memLog ++ [⟨.read, addr &&& 0xFFFFFFFC, .word, v⟩,
          ⟨.write, addr &&& 0xFFFFFFFC, .word, t.memWord (addr &&& 0xFFFFFFFC).toNat⟩]
        reads := s.reads.tail }) ∧
    (31 < idx.toNat → exec (.clrb addr idx) s = .next s)

/-- R159, R160, R161: one 4-byte read and then one 4-byte write to the same masked address, of the value read combined
with the operands; `value` of `MOD32` is not masked. No other byte of `MEM` and nothing else changes. -/
def Obligations.ModifyClassesReadThenWrite : Prop :=
  ∀ (addr : Word) (s : State) (v : Word), v = s.readValue (addr &&& 0xFFFFFFFC) .word →
    ∀ (i : Instr) (r : Word),
      (∃ imm, i = .or32 addr imm ∧ r = v ||| imm) ∨
      (∃ imm, i = .and32 addr imm ∧ r = v &&& imm) ∨
      (∃ mask value, i = .mod32 addr mask value ∧ r = (v &&& ~~~mask) ||| value) →
      ∃ t, exec i s = .next t ∧
        t.memWord (addr &&& 0xFFFFFFFC).toNat = r ∧
        MemSameOutside s t (addr &&& 0xFFFFFFFC).toNat 4 ∧
        t = { s with
          mem := t.mem
          memLog := s.memLog ++ [⟨.read, addr &&& 0xFFFFFFFC, .word, v⟩, ⟨.write, addr &&& 0xFFFFFFFC, .word, r⟩]
          reads := s.reads.tail }

/-- R162: a body of the no-op class, handed to the Register-Access Handler, does nothing; the frame is `Consumed`. -/
def Obligations.NopDoesNothing : Prop :=
  ∀ (s : State) (body : List Byte) (ctx : FrameCtx), s.phase = .handler .ra body ctx →
    (body.length < 4 ∨
      (body.length, (opField (le32 body 0)).toNat) ∉
        [(4, 0), (4, 1), (4, 2), (5, 0), (5, 1), (5, 2), (6, 0), (8, 0), (8, 1), (8, 2), (12, 0)]) →
    exec (.nop body) s = .next s ∧ step s = .next { s with phase := .returned ctx } ∧
    (s.txf = false → Steps 2 s { s with
      cur := s.cur + ctx.total, outcome := some (.consumed ctx.total), phase := .parse ctx.wp })

/-- R62, R64: a word written is what a later read of it replies with, where the environment leaves the location
alone. -/
def Obligations.WordWrittenIsReadBack : Prop :=
  ∀ (addr v : Word) (s : State), s.reads.head? = none ∨ s.reads.head? = some none →
    ∃ t u, exec (.wr32 addr v) s = .next t ∧ exec (.rd32 addr) t = .next u ∧
      u.tx = s.tx ++ ([0x04, 0x00] ++ bytesLe v 4 ++ bytesLe (Config.crc16 (bytesLe v 4)) 2)

/-! ## The other agents and the events (10_state.md, 40_receive_intake.md, 42_dispatcher.md) -/

/-- R43: a received byte is lost while reception is not active; otherwise a full buffer wraps first, the byte goes to
the write position, which moves on, and reaching the end of the buffer raises a transfer-complete event. No other
byte of `RXBUF` and nothing else changes. -/
def Obligations.ByteArrivalFillsTheBuffer : Prop :=
  ∀ (s : State) (b : Byte) (later : List Input), s.phase = .rest → s.inputs = .byte b :: later →
    (s.rxa = false → step s = .next { s with inputs := later }) ∧
    (s.rxa = true → ∀ p, p = (if s.wp = Config.rxCap then 0 else s.wp) →
      ∃ t, step s = .next t ∧ (∀ i, t.rxByte i = if i = p then b else s.rxByte i) ∧
        t = { s with
          inputs := later, rxbuf := t.rxbuf, wp := p + 1
          tcPending := s.tcPending || decide (p + 1 = Config.rxCap) })

/-- R44: an idle event that is raised becomes pending, once; it is dropped while reception is not active. -/
def Obligations.IdleEventIsRaisedOrDropped : Prop :=
  ∀ (s : State) (later : List Input), s.phase = .rest → s.inputs = .raiseIdle :: later →
    (s.rxa = true → step s = .next { s with inputs := later, idlePending := true }) ∧
    (s.rxa = false → step s = .next { s with inputs := later })

/-- R100: `start()` zeroes `CUR`, `WP` and `ERR`, makes reception active and empties `EVQ`; `TXF`, `RXBUF` and
everything else keep their values. -/
def Obligations.StartBeginsAReceiveCycle : Prop :=
  ∀ (s : State) (later : List Input), s.phase = .rest → s.inputs = .start :: later →
    step s = .next { s with
      inputs := later, cur := 0, wp := 0, err := false, rxa := true, idlePending := false, tcPending := false }

/-- R141: a registration appends one entry; with a key of more than 7 bytes, or with 16 entries in use, it is
silently ignored. -/
def Obligations.RegisterAppendsOrIsIgnored : Prop :=
  ∀ (s : State) (key : List Byte) (h : HandlerId) (later : List Input),
    s.phase = .rest → s.inputs = .register key h :: later →
    (key.length > 7 ∨ s.regn = 16 → step s = .next { s with inputs := later }) ∧
    (key.length ≤ 7 → s.regn ≠ 16 → step s = .next { s with inputs := later, reg := s.reg ++ [⟨key, h⟩] })

/-- R102: an idle event that is handled is taken out of `EVQ`; it is dropped while reception is not active; while
latched the tail is to be inspected; a fill position behind the cursor latches; otherwise the parse loop begins with
the fill position of this moment. -/
def Obligations.IdleEventBeginsItsStep : Prop :=
  ∀ (s : State) (first : Event) (later : List Input), s.phase = .rest → s.inputs = .serve first :: later →
    s.idlePending = true → s.tcPending = false →
    (s.rxa = false → step s = .next { s with inputs := later, idlePending := false }) ∧
    (s.rxa = true → s.err = true →
      step s = .next { s with inputs := later, idlePending := false, phase := .tail s.wp }) ∧
    (s.rxa = true → s.err = false → s.wp < s.cur →
      step s = .next { s with inputs := later, idlePending := false, err := true }) ∧
    (s.rxa = true → s.err = false → s.cur ≤ s.wp →
      step s = .next { s with inputs := later, idlePending := false, phase := .parse s.wp })

/-- R107: the transfer-complete event latches the error and does nothing else. -/
def Obligations.TransferCompleteLatches : Prop :=
  ∀ (s : State) (first : Event) (later : List Input), s.phase = .rest → s.inputs = .serve first :: later →
    s.idlePending = false → s.tcPending = true →
    (s.rxa = false → step s = .next { s with inputs := later, tcPending := false }) ∧
    (s.rxa = true → step s = .next { s with inputs := later, tcPending := false, err := true })

/-- R45, R189: with both events pending, either may be handled first while `WP = RX_CAP`; once the fill has wrapped
the transfer-complete event is. -/
def Obligations.EventOrderAtAFullBuffer : Prop :=
  ∀ (s : State) (first : Event) (later : List Input), s.phase = .rest → s.inputs = .serve first :: later →
    s.idlePending = true → s.tcPending = true → s.rxa = true →
    (s.wp ≠ Config.rxCap ∨ first = .transferComplete →
      step s = .next { s with inputs := later, tcPending := false, err := true }) ∧
    (s.wp = Config.rxCap → first = .idle → s.err = true →
      step s = .next { s with inputs := later, idlePending := false, phase := .tail s.wp }) ∧
    (s.wp = Config.rxCap → first = .idle → s.err = false → s.cur ≤ s.wp →
      step s = .next { s with inputs := later, idlePending := false, phase := .parse s.wp })

/-- R103: while latched, the handshake runs exactly where the filled region ends with `55 AA 55 AA`; otherwise the
event step ends with nothing done. -/
def Obligations.TailInspectionSeesOnlyTheDoubledMarker : Prop :=
  ∀ (s : State) (wp : Nat), s.phase = .tail wp →
    (4 ≤ wp ∧ s.rxByte (wp - 4) = 0x55 ∧ s.rxByte (wp - 3) = 0xAA ∧ s.rxByte (wp - 2) = 0x55 ∧
        s.rxByte (wp - 1) = 0xAA →
      step s = .next { handshake s with phase := .rest }) ∧
    (¬(4 ≤ wp ∧ s.rxByte (wp - 4) = 0x55 ∧ s.rxByte (wp - 3) = 0xAA ∧ s.rxByte (wp - 2) = 0x55 ∧
        s.rxByte (wp - 1) = 0xAA) →
      step s = .next { s with phase := .rest })

/-! ## The step and the whole machine -/

/-- R70, R102, R103, R145: at each fetch point the step runs the instruction decoded there. A link item and the
doubled marker say themselves where the engine stands next; a micro-instruction returns to the parser; a transmission
is followed by the next one of its handler; an acknowledgement that is due ends the event step. -/
def Obligations.StepRunsTheDecodedInstruction : Prop :=
  ∀ (s : State) (i : Instr),
    (∀ wp rest, s.phase = .parse wp → decode .link (s.rxBytes s.cur wp) = .instr i rest → step s = exec i s) ∧
    (∀ wp rest, s.phase = .tail wp → 4 ≤ wp → decode .tail (s.rxBytes (wp - 4) wp) = .instr i rest →
      step s = exec i s) ∧
    (∀ body rest ctx u, s.phase = .handler .ra body ctx → decode .body body = .instr i rest →
      exec i s = .next u → step s = .next { u with phase := .returned ctx }) ∧
    (∀ r later ret ctx u, s.phase = .uplink (r :: later) ret ctx → i = .reply r.size r.data →
      exec i s = .next u → step s = .next { u with phase := .uplink later ret ctx }) ∧
    (∀ u, s.phase = .ackDue → i = .ack → exec i s = .next u → step s = .next { u with phase := .rest })

/-- Log entry 13 (the model's own reading of the table's words): the instruction read from a table word is what the
next step fetches where that word has been placed. -/
def Obligations.PlacedWordIsFetched : Prop :=
  ∀ (s : State) (nbits w : Nat) (i : Instr), decodeTableWord nbits w = some i →
    (s.withFetchWord nbits w).fetch = .instr i

/-- R48: reset leaves every register of the block zero, and the registry, `EVQ` and `TX` empty; the block is stopped
(R195). -/
def Obligations.ResetLeavesTheBlockStopped : Prop :=
  State.reset.cur = 0 ∧ State.reset.wp = 0 ∧ State.reset.err = false ∧ State.reset.txf = false ∧
  State.reset.rxa = false ∧ State.reset.regn = 0 ∧ State.reset.idlePending = false ∧
  State.reset.tcPending = false ∧ State.reset.tx = [] ∧ State.reset.mode = .stopped

/-- The invariant of Safety.lean holds at reset. -/
def Obligations.InvariantHoldsAtReset : Prop := State.reset.Inv

/-- The invariant of Safety.lean (R22, R23, R25, R26, R29, R31, R32, R45, the canonical form of both memories) is kept
by every step, from every state that has it. -/
def Obligations.EveryStepKeepsTheInvariant : Prop :=
  ∀ s t : State, s.Inv → step s = .next t → t.Inv

/-- R102, R45: under the invariant the defensive line of the idle event step is unreachable: when an idle event is the
one to be handled and the error is not latched, the cursor is not past the write position. -/
def Obligations.DefensiveLineIsUnreachable : Prop :=
  ∀ (s : State) (first : Event), s.Inv → s.nextEvent first = some .idle → s.err = false → s.cur ≤ s.wp

/-- No instruction faults or is refused, in any state; the only thing that stops the machine is an external handler
that does not return (R180, R185, R211 (c)). -/
def Obligations.OnlyAHangingHandlerStopsTheMachine : Prop :=
  (∀ (i : Instr) (s : State), ∃ t, exec i s = .next t) ∧
  (∀ s : State, (∃ t, step s = .next t) ∨
    (step s = .fault .handlerHangs ∧ ∃ ctx, s.phase = .uplink [] false ctx))

/-- R26: once reception is active it stays so. -/
def Obligations.ReceptionStaysActive : Prop :=
  ∀ s t : State, s.rxa = true → step s = .next t → t.rxa = true

/-- R201, R44, R43: before the first start no act of another agent but `start()` changes anything of the block except
its registry. -/
def Obligations.StoppedBlockIgnoresTheLink : Prop :=
  ∀ s t : State, s.Inv → s.rxa = false → s.phase = .rest → step s = .next t →
    (s.inputs.head? = some .start ∧ Restarted t ∧ t.tx = s.tx ∧ t.rxbuf = s.rxbuf) ∨
    t = { s with inputs := t.inputs, reg := t.reg, mem := t.mem }

/-- R33, R142, R14, R46: what the block has sent, the accesses it has made, the calls it has made and the entries of
its registry are only ever added to, at the end. -/
def Obligations.OutputsAndRegistryOnlyGrow : Prop :=
  ∀ s t : State, step s = .next t →
    s.tx <+: t.tx ∧ s.memLog <+: t.memLog ∧ s.calls <+: t.calls ∧ s.reg <+: t.reg

/-- R54, R57: one step makes no access to `MEM`, one access, or one 4-byte read followed by one 4-byte write to the
same address; every access is at a 4-byte-aligned address. -/
def Obligations.AccessesAreAlignedAndAsDeclared : Prop :=
  ∀ s t : State, step s = .next t →
    ∃ new, t.memLog = s.memLog ++ new ∧ (∀ a ∈ new, a.addr &&& 3 = 0) ∧
      (new = [] ∨ (∃ a, new = [a]) ∨
        ∃ addr v w, new = [⟨.read, addr, .word, v⟩, ⟨.write, addr, .word, w⟩])

/-- R31, R66: no step but a byte arrival while reception is active changes `RXBUF`, and it changes one byte. -/
def Obligations.OnlyByteArrivalWritesTheBuffer : Prop :=
  ∀ s t : State, step s = .next t →
    t.rxbuf = s.rxbuf ∨
    (s.phase = .rest ∧ s.rxa = true ∧ ∃ b, s.inputs.head? = some (.byte b) ∧
      ∀ i, t.rxByte i = if i = s.storeAt then b else s.rxByte i)

/-- R32, R35: no step changes `MEM` but one that runs a micro-instruction, calls an external handler, or is a change
by the environment; and one that changes it leaves `CUR`, `WP`, `ERR`, `TXF`, `RXA`, `EVQ`, `REG`, `RXBUF` and `TX`
as they were. -/
def Obligations.MemAndTheBlockAreDisjoint : Prop :=
  ∀ s t : State, step s = .next t → t.mem ≠ s.mem →
    ((∃ h body ctx, s.phase = .handler h body ctx) ∨
      (s.phase = .rest ∧ ∃ cells, s.inputs.head? = some (.memWrite cells))) ∧
    t.cur = s.cur ∧ t.wp = s.wp ∧ t.err = s.err ∧ t.txf = s.txf ∧ t.rxa = s.rxa ∧
    t.idlePending = s.idlePending ∧ t.tcPending = s.tcPending ∧ t.reg = s.reg ∧ t.rxbuf = s.rxbuf ∧ t.tx = s.tx

/-- R22, R104, R108: in a state that has the invariant the cursor stays, goes to 0, or moves on by the length of a
frame: of the frame decoded at the cursor, or of the one whose handler has returned. That length is at least 6, and the
cursor does not pass the write position. -/
def Obligations.CursorMovesByWholeFrames : Prop :=
  ∀ s t : State, s.Inv → step s = .next t →
    t.cur = s.cur ∨ t.cur = 0 ∨
    ∃ n, t.cur = s.cur + n ∧ 6 ≤ n ∧ t.cur ≤ s.wp ∧
      ((∃ wp payload crc rest, s.phase = .parse wp ∧
          decode .link (s.rxBytes s.cur wp) = .instr (.frame payload crc) rest ∧ n = payload.length + 4) ∨
        (∃ ctx, (s.phase = .returned ctx ∨ s.phase = .uplink [] true ctx) ∧ n = ctx.total))

/-- R191: while latched no access to `MEM` is made and no handler is called; the cursor does not move and nothing is
transmitted unless the latched state is left. -/
def Obligations.LatchedBlockExecutesNothing : Prop :=
  ∀ s t : State, s.Inv → s.err = true → step s = .next t →
    t.memLog = s.memLog ∧ t.calls = s.calls ∧ (t.err = true → t.cur = s.cur ∧ t.tx = s.tx)

/-- R192, R24: the latched state is left only by a restart of reception: `start()`, or the handshake on the doubled
marker at the tail (or an acknowledgement that is due, log entry 12). -/
def Obligations.OnlyARestartLeavesTheLatchedState : Prop :=
  ∀ s t : State, s.Inv → s.err = true → step s = .next t → t.err = false →
    Restarted t ∧
    ((s.phase = .rest ∧ s.inputs.head? = some .start) ∨
      (∃ wp, s.phase = .tail wp ∧ 4 ≤ wp ∧ s.rxBytes (wp - 4) wp = [0x55, 0xAA, 0x55, 0xAA]) ∨
      s.phase = .ackDue)

/-- R190, R181, R24: the latched state is entered only by an illegal size, a CRC mismatch or the transfer-complete
event; nothing of the block changes but `ERR` (and the event's pending bit), and nothing is sent or accessed. -/
def Obligations.LatchedStateIsEnteredPrecisely : Prop :=
  ∀ s t : State, s.Inv → s.err = false → step s = .next t → t.err = true →
    t = { s with err := true, tcPending := t.tcPending, outcome := t.outcome, phase := .rest, inputs := t.inputs } ∧
    ((∃ wp size rest, s.phase = .parse wp ∧ decode .link (s.rxBytes s.cur wp) = .instr (.illegalSize size) rest) ∨
      (∃ wp payload crc rest, s.phase = .parse wp ∧
        decode .link (s.rxBytes s.cur wp) = .instr (.frame payload crc) rest ∧ Config.crc16 payload ≠ crc) ∨
      (s.phase = .rest ∧ ∃ first, s.inputs.head? = some (.serve first) ∧
        s.nextEvent first = some .transferComplete))

/-- R120 to R132, R145, R150 (source property 1): a good frame with the key `"_"` at the cursor, of which the whole
lies below the sampled fill position, makes the block do in three steps exactly what the micro-instruction in its body
does; then the outcome is `Consumed` and the cursor stands behind the frame, or, for the three read classes, which
have replied, the outcome is `Sync` and the event step is over. -/
def Obligations.RegisterAccessFrameRunsItsMicroInstruction : Prop :=
  ∀ (s : State) (wp k : Nat) (i : Instr) (total : Nat),
    s.phase = .parse wp → s.txf = false →
    s.reg[k]? = some ⟨Config.raKey, .ra⟩ → (∀ j, j < k → ∀ e, s.reg[j]? = some e → e.key ≠ Config.raKey) →
    i.wf = true → i.level = .body →
    legalSize ((encode i).length + 2) = true → total = (encode i).length + 6 →
    s.RxHolds s.cur (encode (frameOf (raPayload (encode i)))) → s.cur + total ≤ wp →
    ∃ u, exec i { s with phase := .handler .ra (encode i) ⟨total, wp⟩ } = .next u ∧
      (u.txf = true ↔ ∃ addr, i = .rd32 addr ∨ i = .rd8 addr ∨ i = .rd16 addr) ∧
      (u.txf = false →
        Steps 3 s { u with cur := s.cur + total, outcome := some (.consumed total), phase := .parse wp }) ∧
      (u.txf = true →
        Restarted u ∧ Steps 3 s { u with txf := false, outcome := some .sync, phase := .rest })

/-- R146, R131: an external handler that asks for no transmission and returns leaves the block's state alone and the
frame is consumed; one that asks for some has them sent in order, each as a frame, and however many there are the
outcome is one `Sync`, with reception restarted. -/
def Obligations.ExternalHandlerTransmitsInOrder : Prop :=
  ∀ (s : State) (id : Fin 15) (body : List Byte) (ctx : FrameCtx) (cells : List Host.Cell)
    (requests : List TxRequest) (later : List HandlerReply),
    s.phase = .handler (.ext id) body ctx → s.txf = false → s.handlers = ⟨cells, requests, true⟩ :: later →
    (∀ r ∈ requests, r.size.toNat ≤ r.data.length) →
    (requests = [] →
      Steps 2 s { s with
        calls := s.calls ++ [(.ext id, body)], handlers := later, mem := s.mem.change cells
        cur := s.cur + ctx.total, outcome := some (.consumed ctx.total), phase := .parse ctx.wp }) ∧
    (requests ≠ [] →
      Steps (requests.length + 2) s { s with
        calls := s.calls ++ [(.ext id, body)], handlers := later, mem := s.mem.change cells
        cur := 0, wp := 0, err := false, rxa := true, idlePending := false, tcPending := false
        tx := s.tx ++ requests.flatMap fun r =>
          bytesLe r.size 2 ++ r.data.take r.size.toNat ++ bytesLe (Config.crc16 (r.data.take r.size.toNat)) 2
        outcome := some .sync, phase := .rest })

/-- R108, R18: from every state that has the invariant, with external handlers that return, the running event step
comes to its end, and no other agent has acted meanwhile. It takes at most three machine steps for each of the at most
`RX_CAP / 6` frames it can pass, one for each transmission that external handlers have still to make, and three
more. -/
def Obligations.EventStepEnds : Prop :=
  ∀ s : State, s.Inv → (∀ r ∈ s.handlers, r.returns = true) →
    (∀ requests ctx, s.phase ≠ .uplink requests false ctx) →
    ∃ k t, k ≤ 3 * (Config.rxCap / 6) + 3 + s.sendsDue ∧ Steps k s t ∧ t.phase = .rest ∧ t.inputs = s.inputs

/-- R146, R131, R211 (c): the calls of an external handler that `ExternalHandlerTransmitsInOrder` leaves out. A call
the environment's script says nothing of is silent (log entry 10, the model's choice). Where transmissions are asked
for with any size, each sends exactly `size` bytes that begin with those of its data (those behind the data are free
values, log entry 11), in order, and the outcome is one `Sync`. A handler that does not return is called,
makes its transmissions in the same way, with reception restarted and `TXF` set where there are any, and then stops the
machine (U7). -/
def Obligations.ExternalHandlerCallsOfEveryKind : Prop :=
  ∀ (s : State) (id : Fin 15) (body : List Byte) (ctx : FrameCtx),
    s.phase = .handler (.ext id) body ctx → s.txf = false →
    (s.handlers = [] →
      Steps 2 s { s with
        calls := s.calls ++ [(.ext id, body)]
        cur := s.cur + ctx.total, outcome := some (.consumed ctx.total), phase := .parse ctx.wp }) ∧
    (∀ cells requests later, s.handlers = ⟨cells, requests, true⟩ :: later → requests ≠ [] →
      ∃ (t : State) (sent : List (List Byte)),
        Steps (requests.length + 2) s t ∧
        List.Forall₂ (fun r d => d.length = r.size.toNat ∧ r.data.take r.size.toNat <+: d) requests sent ∧
        t = { s with
          calls := s.calls ++ [(.ext id, body)], handlers := later, mem := s.mem.change cells
          cur := 0, wp := 0, err := false, rxa := true, idlePending := false, tcPending := false
          tx := s.tx ++ sent.flatMap fun d =>
            bytesLe (BitVec.ofNat 16 d.length) 2 ++ d ++ bytesLe (Config.crc16 d) 2
          outcome := some .sync, phase := .rest, free := t.free }) ∧
    (∀ cells requests later, s.handlers = ⟨cells, requests, false⟩ :: later →
      ∃ (t : State) (sent : List (List Byte)),
        Steps (requests.length + 1) s t ∧
        List.Forall₂ (fun r d => d.length = r.size.toNat ∧ r.data.take r.size.toNat <+: d) requests sent ∧
        (requests = [] →
          t = { s with
            calls := s.calls ++ [(.ext id, body)], handlers := later, mem := s.mem.change cells
            phase := .uplink [] false ctx }) ∧
        (requests ≠ [] →
          t = { s with
            calls := s.calls ++ [(.ext id, body)], handlers := later, mem := s.mem.change cells
            cur := 0, wp := 0, err := false, txf := true, rxa := true, idlePending := false, tcPending := false
            tx := s.tx ++ sent.flatMap fun d =>
              bytesLe (BitVec.ofNat 16 d.length) 2 ++ d ++ bytesLe (Config.crc16 d) 2
            phase := .uplink [] false ctx, free := t.free }) ∧
        step t = .fault .handlerHangs)
end

