-- ==== Sys2Proof/Laws/Bytes.lean ====
section
/-! SUPPORT. Byte order: what `bytesLe` writes, `le16` and `le32` read back (00_scope.md R12). -/

namespace Sys2Proof

@[simp] theorem bytesLe_length {w : Nat} (v : BitVec w) (n : Nat) : (bytesLe v n).length = n := by
  simp [bytesLe]

theorem bytesLe_one (v : BitVec 8) : bytesLe v 1 = [v] := by
  simp [bytesLe, List.range_succ]

theorem bytesLe_two {w : Nat} (v : BitVec w) : bytesLe v 2 = [v.extractLsb' 0 8, v.extractLsb' 8 8] := by
  simp [bytesLe, List.range_succ]

theorem bytesLe_four {w : Nat} (v : BitVec w) :
    bytesLe v 4 = [v.extractLsb' 0 8, v.extractLsb' 8 8, v.extractLsb' 16 8, v.extractLsb' 24 8] := by
  simp [bytesLe, List.range_succ]

theorem half_of_bytes (v : Half) : v.extractLsb' 8 8 ++ v.extractLsb' 0 8 = v := by
  apply BitVec.eq_of_getElem_eq
  intro i hi
  simp only [BitVec.getElem_append, BitVec.getElem_extractLsb']
  split
  · simp [BitVec.getLsbD_eq_getElem hi]
  · rw [show 8 + (i - 8) = i by omega]
    simp [BitVec.getLsbD_eq_getElem hi]

theorem word_of_bytes (v : Word) :
    ((v.extractLsb' 24 8 ++ v.extractLsb' 16 8 : Half) ++ (v.extractLsb' 8 8 ++ v.extractLsb' 0 8 : Half) : Word)
      = v := by
  apply BitVec.eq_of_getElem_eq
  intro i hi
  simp only [BitVec.getElem_append, BitVec.getElem_extractLsb']
  split
  · split
    · simp [BitVec.getLsbD_eq_getElem hi]
    · rw [show 8 + (i - 8) = i by omega]
      simp [BitVec.getLsbD_eq_getElem hi]
  · split
    · rw [show 16 + (i - 16) = i by omega]
      simp [BitVec.getLsbD_eq_getElem hi]
    · rw [show 24 + (i - 16 - 8) = i by omega]
      simp [BitVec.getLsbD_eq_getElem hi]

@[simp] theorem le16_bytesLe (v : Half) (rest : List Byte) : le16 (bytesLe v 2 ++ rest) 0 = v := by
  simp [bytesLe_two, le16, half_of_bytes]

@[simp] theorem le32_bytesLe (v : Word) (rest : List Byte) : le32 (bytesLe v 4 ++ rest) 0 = v := by
  simpa [bytesLe_four, le32, le16] using word_of_bytes v

@[simp] theorem drop_bytesLe {w : Nat} (v : BitVec w) (n : Nat) (rest : List Byte) :
    (bytesLe v n ++ rest).drop n = rest := by
  rw [List.drop_append_of_le_length (by simp), List.drop_of_length_le (by simp), List.nil_append]

/-- Byte `k` of a little-endian word. -/
theorem le32_byte (l : List Byte) (k : Nat) (hk : k < 4) : (le32 l 0).extractLsb' (8 * k) 8 = l.getD k 0 := by
  apply BitVec.eq_of_getElem_eq
  intro j hj
  have hjj : (8 * k + j) < 32 := by omega
  simp only [BitVec.getElem_extractLsb', le32, le16]
  rw [BitVec.getLsbD_append, BitVec.getLsbD_append, BitVec.getLsbD_append]
  interval_cases k
  · simp [show j < 16 by omega, hj]
  · have h1 : 8 * 1 + j < 16 := by omega
    have h2 : ¬ 8 * 1 + j < 8 := by omega
    simp only [h1, h2, decide_true, decide_false, cond_true, cond_false, show 8 * 1 + j - 8 = j by omega]
    exact BitVec.getLsbD_eq_getElem hj
  · have h1 : ¬ 8 * 2 + j < 16 := by omega
    simp only [h1, hj, if_true, if_false, show 8 * 2 + j - 16 = j by omega]
    exact BitVec.getLsbD_eq_getElem hj
  · have h1 : ¬ 8 * 3 + j < 16 := by omega
    have h2 : ¬ 8 * 3 + j - 16 < 8 := by omega
    simp only [h1, h2, decide_true, decide_false, cond_true, cond_false, show 8 * 3 + j - 16 - 8 = j by omega]
    exact BitVec.getLsbD_eq_getElem hj

/-- A word is its four bytes. -/
theorem word_ext {u v : Word} (h : ∀ k, k < 4 → u.extractLsb' (8 * k) 8 = v.extractLsb' (8 * k) 8) : u = v := by
  rw [← word_of_bytes u, ← word_of_bytes v]
  have h0 := h 0 (by omega); have h1 := h 1 (by omega); have h2 := h 2 (by omega); have h3 := h 3 (by omega)
  simp only [Nat.mul_zero, Nat.mul_one, Nat.reduceMul] at h0 h1 h2 h3
  rw [h0, h1, h2, h3]

/-- `le16` is the sum of R12: `zext_16(s[i]) | zext_16(s[i+1]) << 8`. -/
theorem le16_eq_shifts (s : List Byte) (i : Nat) :
    le16 s i = (s.getD i 0).zeroExtend 16 ||| ((s.getD (i + 1) 0).zeroExtend 16 <<< 8) := by
  unfold le16
  generalize s.getD i 0 = x
  generalize s.getD (i + 1) 0 = y
  apply BitVec.eq_of_getElem_eq
  intro j hj
  simp only [BitVec.getElem_append, BitVec.getElem_or, BitVec.getElem_shiftLeft, BitVec.getElem_setWidth,
    BitVec.zeroExtend]
  split
  · simp_all
  · rename_i h
    simp [h, show 8 ≤ j by omega]
    exact (BitVec.getLsbD_eq_getElem (by omega)).symm

end Sys2Proof
end

