-- ==== Sys2Proof/Laws/Memory.lean ====
section
/-! SUPPORT. Memories: a read after a write to the same address gives the byte written, a write leaves every other
address alone, and every operation keeps the canonical form and the bound on addresses. -/

namespace Sys2Proof.Machine

@[simp] theorem Memory.get?_nil (x : Nat) : Memory.get? [] x = none := rfl

@[simp] theorem Memory.get?_set_self (m : Memory) (x : Nat) (b : Byte) : (m.set x b).get? x = some b := by
  induction m with
  | nil => simp [Memory.set, Memory.get?]
  | cons c rest ih =>
    obtain ⟨a, v⟩ := c
    simp only [Memory.set]
    split
    · simp [Memory.get?]
    · split
      · simp [Memory.get?]
      · simp [Memory.get?, *]

theorem Memory.get?_set_ne (m : Memory) {x y : Nat} (b : Byte) (h : y ≠ x) : (m.set x b).get? y = m.get? y := by
  induction m with
  | nil => simp [Memory.set, Memory.get?, h]
  | cons c rest ih =>
    obtain ⟨a, v⟩ := c
    simp only [Memory.set]
    split
    · simp [Memory.get?, h]
    · split
      · subst_vars
        simp [Memory.get?, h]
      · simp [Memory.get?, ih]

theorem Memory.get?_set (m : Memory) (x y : Nat) (b : Byte) :
    (m.set x b).get? y = if y = x then some b else m.get? y := by
  split
  · subst_vars
    simp
  · exact Memory.get?_set_ne m b ‹_›

theorem Memory.mem_set {m : Memory} {x : Nat} {b : Byte} {c : Host.Cell} (h : c ∈ m.set x b) :
    c = (x, b) ∨ c ∈ m := by
  induction m with
  | nil => simpa [Memory.set] using h
  | cons d rest ih =>
    obtain ⟨a, v⟩ := d
    simp only [Memory.set] at h
    split at h
    · simpa using h
    · split at h
      · simp only [List.mem_cons] at h ⊢
        tauto
      · simp only [List.mem_cons] at h ⊢
        rcases h with h | h
        · exact .inr (.inl h)
        · rcases ih h with h | h
          · exact .inl h
          · exact .inr (.inr h)

theorem Memory.wf_cons {a : Nat} {v : Byte} {rest : Memory} :
    Memory.wf ((a, v) :: rest) = true ↔ (∀ c ∈ rest, a < c.1) ∧ Memory.wf rest = true := by
  simp [Memory.wf]

/-- A write keeps the canonical form. -/
theorem Memory.wf_set {m : Memory} (h : m.wf = true) (x : Nat) (b : Byte) : (m.set x b).wf = true := by
  induction m with
  | nil => simp [Memory.set, Memory.wf]
  | cons c rest ih =>
    obtain ⟨a, v⟩ := c
    obtain ⟨hlt, hrest⟩ := Memory.wf_cons.1 h
    simp only [Memory.set]
    split
    · refine Memory.wf_cons.2 ⟨?_, h⟩
      intro c hc
      rcases List.mem_cons.1 hc with rfl | hc
      · assumption
      · exact lt_trans ‹_› (hlt c hc)
    · split
      · subst_vars
        exact Memory.wf_cons.2 ⟨hlt, hrest⟩
      · refine Memory.wf_cons.2 ⟨?_, ih hrest⟩
        intro c hc
        rcases Memory.mem_set hc with rfl | hc
        · show a < x
          omega
        · exact hlt c hc

theorem Memory.get?_eq_none_of_lt {m : Memory} {x : Nat} (h : ∀ c ∈ m, x < c.1) : m.get? x = none := by
  induction m with
  | nil => rfl
  | cons c rest ih =>
    obtain ⟨a, v⟩ := c
    have : x < a := h (a, v) (by simp)
    rw [Memory.get?, if_neg (by omega)]
    exact ih fun c hc => h c (by simp [hc])

/-- Equal memories are equal data. -/
theorem Memory.ext_of_wf : ∀ {m n : Memory}, m.wf = true → n.wf = true → (∀ x, m.get? x = n.get? x) → m = n
  | [], [], _, _, _ => rfl
  | [], (a, v) :: _, _, _, h => by simpa [Memory.get?] using h a
  | (a, v) :: _, [], _, _, h => by simpa [Memory.get?] using h a
  | (a, v) :: m, (b, w) :: n, hm, hn, h => by
    obtain ⟨hma, hm'⟩ := Memory.wf_cons.1 hm
    obtain ⟨hnb, hn'⟩ := Memory.wf_cons.1 hn
    have hab : a = b := by
      by_contra hne
      rcases Nat.lt_or_gt_of_ne hne with hlt | hlt
      · have ha := h a
        rw [Memory.get?, if_pos rfl, Memory.get?, if_neg (by omega),
          Memory.get?_eq_none_of_lt fun c hc => lt_trans hlt (hnb c hc)] at ha
        cases ha
      · have hb := h b
        rw [Memory.get?, if_neg (by omega), Memory.get?_eq_none_of_lt fun c hc => lt_trans hlt (hma c hc),
          Memory.get?, if_pos rfl] at hb
        cases hb
    subst hab
    have hv : v = w := by simpa [Memory.get?] using h a
    subst hv
    rw [Memory.ext_of_wf hm' hn' fun x => ?_]
    by_cases hx : x = a
    · subst hx
      rw [Memory.get?_eq_none_of_lt hma, Memory.get?_eq_none_of_lt hnb]
    · simpa [Memory.get?, hx] using h x

/-! ## Stores of several bytes -/

theorem Memory.get?_store_outside (m : Memory) (a : Nat) (bs : List Byte) (x : Nat)
    (h : x < a ∨ a + bs.length ≤ x) : (m.store a bs).get? x = m.get? x := by
  induction bs generalizing m a with
  | nil => rfl
  | cons b rest ih =>
    rw [Memory.store, ih (m.set a b) (a + 1) (by simp at h; omega), Memory.get?_set_ne]
    simp at h
    omega

theorem Memory.get?_store_inside (m : Memory) (a : Nat) (bs : List Byte) (k : Nat) (h : k < bs.length) :
    (m.store a bs).get? (a + k) = some bs[k] := by
  induction bs generalizing m a k with
  | nil => simp at h
  | cons b rest ih =>
    rw [Memory.store]
    cases k with
    | zero => rw [Memory.get?_store_outside _ _ _ _ (by omega)]; simp
    | succ k =>
      rw [show a + (k + 1) = (a + 1) + k by omega, ih (m.set a b) (a + 1) k (by simpa using h)]
      simp

theorem Memory.wf_store {m : Memory} (h : m.wf = true) (a : Nat) (bs : List Byte) : (m.store a bs).wf = true := by
  induction bs generalizing m a with
  | nil => exact h
  | cons b rest ih => exact ih (Memory.wf_set h a b) (a + 1)

theorem Memory.mem_store {m : Memory} {a : Nat} {bs : List Byte} {c : Host.Cell} (h : c ∈ m.store a bs) :
    (a ≤ c.1 ∧ c.1 < a + bs.length) ∨ c ∈ m := by
  induction bs generalizing m a with
  | nil => exact .inr h
  | cons b rest ih =>
    rcases ih h with h | h
    · left
      simp only [List.length_cons]
      omega
    · rcases Memory.mem_set h with rfl | h
      · left
        simp
      · exact .inr h

/-! ## Changes by the environment -/

theorem Memory.wf_change {m : Memory} (h : m.wf = true) (cells : List Host.Cell) : (m.change cells).wf = true := by
  unfold Memory.change
  induction cells generalizing m with
  | nil => exact h
  | cons c rest ih => exact ih (Memory.wf_set h _ _)

theorem Memory.mem_change {m : Memory} {cells : List Host.Cell} {c : Host.Cell} (h : c ∈ m.change cells) :
    c.1 < 2 ^ 32 ∨ c ∈ m := by
  unfold Memory.change at h
  induction cells generalizing m with
  | nil => exact .inr h
  | cons d rest ih =>
    rcases ih h with h | h
    · exact .inl h
    · rcases Memory.mem_set h with rfl | h
      · exact .inl (Nat.mod_lt _ (by norm_num))
      · exact .inr h

theorem Memory.change_nil (m : Memory) : m.change [] = m := rfl

end Sys2Proof.Machine
end

