-- ==== Sys2Proof/Laws/State.lean ====
section
/-! SUPPORT. What each shared operation leaves in each field of the state: one lemma per field and operation, true by
unfolding. -/

namespace Sys2Proof.Machine

/-! ## `start` -/

@[simp] theorem start_cur (s : State) : s.start.cur = 0 := rfl

@[simp] theorem start_wp (s : State) : s.start.wp = 0 := rfl

@[simp] theorem start_err (s : State) : s.start.err = false := rfl

@[simp] theorem start_txf (s : State) : s.start.txf = s.txf := rfl

@[simp] theorem start_rxa (s : State) : s.start.rxa = true := rfl

@[simp] theorem start_reg (s : State) : s.start.reg = s.reg := rfl

@[simp] theorem start_idlePending (s : State) : s.start.idlePending = false := rfl

@[simp] theorem start_tcPending (s : State) : s.start.tcPending = false := rfl

@[simp] theorem start_rxbuf (s : State) : s.start.rxbuf = s.rxbuf := rfl

@[simp] theorem start_mem (s : State) : s.start.mem = s.mem := rfl

@[simp] theorem start_tx (s : State) : s.start.tx = s.tx := rfl

@[simp] theorem start_phase (s : State) : s.start.phase = s.phase := rfl

@[simp] theorem start_outcome (s : State) : s.start.outcome = s.outcome := rfl

@[simp] theorem start_memLog (s : State) : s.start.memLog = s.memLog := rfl

@[simp] theorem start_calls (s : State) : s.start.calls = s.calls := rfl

@[simp] theorem start_inputs (s : State) : s.start.inputs = s.inputs := rfl

@[simp] theorem start_reads (s : State) : s.start.reads = s.reads := rfl

@[simp] theorem start_handlers (s : State) : s.start.handlers = s.handlers := rfl

@[simp] theorem start_free (s : State) : s.start.free = s.free := rfl

/-! ## `restart` -/

@[simp] theorem restart_cur (s : State) : s.restart.cur = 0 := rfl

@[simp] theorem restart_wp (s : State) : s.restart.wp = 0 := rfl

@[simp] theorem restart_err (s : State) : s.restart.err = false := rfl

@[simp] theorem restart_txf (s : State) : s.restart.txf = s.txf := rfl

@[simp] theorem restart_rxa (s : State) : s.restart.rxa = true := rfl

@[simp] theorem restart_reg (s : State) : s.restart.reg = s.reg := rfl

@[simp] theorem restart_idlePending (s : State) : s.restart.idlePending = false := rfl

@[simp] theorem restart_tcPending (s : State) : s.restart.tcPending = false := rfl

@[simp] theorem restart_rxbuf (s : State) : s.restart.rxbuf = s.rxbuf := rfl

@[simp] theorem restart_mem (s : State) : s.restart.mem = s.mem := rfl

@[simp] theorem restart_tx (s : State) : s.restart.tx = s.tx := rfl

@[simp] theorem restart_phase (s : State) : s.restart.phase = s.phase := rfl

@[simp] theorem restart_outcome (s : State) : s.restart.outcome = s.outcome := rfl

@[simp] theorem restart_memLog (s : State) : s.restart.memLog = s.memLog := rfl

@[simp] theorem restart_calls (s : State) : s.restart.calls = s.calls := rfl

@[simp] theorem restart_inputs (s : State) : s.restart.inputs = s.inputs := rfl

@[simp] theorem restart_reads (s : State) : s.restart.reads = s.reads := rfl

@[simp] theorem restart_handlers (s : State) : s.restart.handlers = s.handlers := rfl

@[simp] theorem restart_free (s : State) : s.restart.free = s.free := rfl

/-! ## `transmit` -/

@[simp] theorem transmit_cur (s : State) (size : Half) (data : List Byte) :
    (transmit s size data).cur = 0 := rfl

@[simp] theorem transmit_wp (s : State) (size : Half) (data : List Byte) :
    (transmit s size data).wp = 0 := rfl

@[simp] theorem transmit_err (s : State) (size : Half) (data : List Byte) :
    (transmit s size data).err = false := rfl

@[simp] theorem transmit_txf (s : State) (size : Half) (data : List Byte) :
    (transmit s size data).txf = true := rfl

@[simp] theorem transmit_rxa (s : State) (size : Half) (data : List Byte) :
    (transmit s size data).rxa = true := rfl

@[simp] theorem transmit_reg (s : State) (size : Half) (data : List Byte) :
    (transmit s size data).reg = s.reg := rfl

@[simp] theorem transmit_idlePending (s : State) (size : Half) (data : List Byte) :
    (transmit s size data).idlePending = false := rfl

@[simp] theorem transmit_tcPending (s : State) (size : Half) (data : List Byte) :
    (transmit s size data).tcPending = false := rfl

@[simp] theorem transmit_rxbuf (s : State) (size : Half) (data : List Byte) :
    (transmit s size data).rxbuf = s.rxbuf := rfl

@[simp] theorem transmit_mem (s : State) (size : Half) (data : List Byte) :
    (transmit s size data).mem = s.mem := rfl

@[simp] theorem transmit_tx (s : State) (size : Half) (data : List Byte) :
    (transmit s size data).tx = s.tx ++ envelope size (s.sentData size data) (Config.crc16 (s.sentData size data)) := rfl

@[simp] theorem transmit_phase (s : State) (size : Half) (data : List Byte) :
    (transmit s size data).phase = s.phase := rfl

@[simp] theorem transmit_outcome (s : State) (size : Half) (data : List Byte) :
    (transmit s size data).outcome = s.outcome := rfl

@[simp] theorem transmit_memLog (s : State) (size : Half) (data : List Byte) :
    (transmit s size data).memLog = s.memLog := rfl

@[simp] theorem transmit_calls (s : State) (size : Half) (data : List Byte) :
    (transmit s size data).calls = s.calls := rfl

@[simp] theorem transmit_inputs (s : State) (size : Half) (data : List Byte) :
    (transmit s size data).inputs = s.inputs := rfl

@[simp] theorem transmit_reads (s : State) (size : Half) (data : List Byte) :
    (transmit s size data).reads = s.reads := rfl

@[simp] theorem transmit_handlers (s : State) (size : Half) (data : List Byte) :
    (transmit s size data).handlers = s.handlers := rfl

@[simp] theorem transmit_free (s : State) (size : Half) (data : List Byte) :
    (transmit s size data).free = s.free + (size.toNat - data.length) := rfl

/-! ## `handshake` -/

@[simp] theorem handshake_cur (s : State) : (handshake s).cur = 0 := rfl

@[simp] theorem handshake_wp (s : State) : (handshake s).wp = 0 := rfl

@[simp] theorem handshake_err (s : State) : (handshake s).err = false := rfl

@[simp] theorem handshake_txf (s : State) : (handshake s).txf = false := rfl

@[simp] theorem handshake_rxa (s : State) : (handshake s).rxa = true := rfl

@[simp] theorem handshake_reg (s : State) : (handshake s).reg = s.reg := rfl

@[simp] theorem handshake_idlePending (s : State) : (handshake s).idlePending = false := rfl

@[simp] theorem handshake_tcPending (s : State) : (handshake s).tcPending = false := rfl

@[simp] theorem handshake_rxbuf (s : State) : (handshake s).rxbuf = s.rxbuf := rfl

@[simp] theorem handshake_mem (s : State) : (handshake s).mem = s.mem := rfl

@[simp] theorem handshake_tx (s : State) :
    (handshake s).tx = s.tx ++ envelope 2 Config.ackData (Config.crc16 Config.ackData) := by simp [handshake, State.clearTransmitted, State.sentData, Config.ackData]

@[simp] theorem handshake_phase (s : State) : (handshake s).phase = s.phase := rfl

@[simp] theorem handshake_outcome (s : State) : (handshake s).outcome = s.outcome := rfl

@[simp] theorem handshake_memLog (s : State) : (handshake s).memLog = s.memLog := rfl

@[simp] theorem handshake_calls (s : State) : (handshake s).calls = s.calls := rfl

@[simp] theorem handshake_inputs (s : State) : (handshake s).inputs = s.inputs := rfl

@[simp] theorem handshake_reads (s : State) : (handshake s).reads = s.reads := rfl

@[simp] theorem handshake_handlers (s : State) : (handshake s).handlers = s.handlers := rfl

@[simp] theorem handshake_free (s : State) : (handshake s).free = s.free := rfl

/-! ## `memWrite` -/

@[simp] theorem memWrite_cur (s : State) (a : Word) (w : Width) (v : Word) :
    (memWrite s a w v).cur = s.cur := rfl

@[simp] theorem memWrite_wp (s : State) (a : Word) (w : Width) (v : Word) :
    (memWrite s a w v).wp = s.wp := rfl

@[simp] theorem memWrite_err (s : State) (a : Word) (w : Width) (v : Word) :
    (memWrite s a w v).err = s.err := rfl

@[simp] theorem memWrite_txf (s : State) (a : Word) (w : Width) (v : Word) :
    (memWrite s a w v).txf = s.txf := rfl

@[simp] theorem memWrite_rxa (s : State) (a : Word) (w : Width) (v : Word) :
    (memWrite s a w v).rxa = s.rxa := rfl

@[simp] theorem memWrite_reg (s : State) (a : Word) (w : Width) (v : Word) :
    (memWrite s a w v).reg = s.reg := rfl

@[simp] theorem memWrite_idlePending (s : State) (a : Word) (w : Width) (v : Word) :
    (memWrite s a w v).idlePending = s.idlePending := rfl

@[simp] theorem memWrite_tcPending (s : State) (a : Word) (w : Width) (v : Word) :
    (memWrite s a w v).tcPending = s.tcPending := rfl

@[simp] theorem memWrite_rxbuf (s : State) (a : Word) (w : Width) (v : Word) :
    (memWrite s a w v).rxbuf = s.rxbuf := rfl

@[simp] theorem memWrite_mem (s : State) (a : Word) (w : Width) (v : Word) :
    (memWrite s a w v).mem = s.mem.store a.toNat (bytesLe v w.bytes) := rfl

@[simp] theorem memWrite_tx (s : State) (a : Word) (w : Width) (v : Word) :
    (memWrite s a w v).tx = s.tx := rfl

@[simp] theorem memWrite_phase (s : State) (a : Word) (w : Width) (v : Word) :
    (memWrite s a w v).phase = s.phase := rfl

@[simp] theorem memWrite_outcome (s : State) (a : Word) (w : Width) (v : Word) :
    (memWrite s a w v).outcome = s.outcome := rfl

@[simp] theorem memWrite_memLog (s : State) (a : Word) (w : Width) (v : Word) :
    (memWrite s a w v).memLog = s.memLog ++ [⟨.write, a, w, v⟩] := rfl

@[simp] theorem memWrite_calls (s : State) (a : Word) (w : Width) (v : Word) :
    (memWrite s a w v).calls = s.calls := rfl

@[simp] theorem memWrite_inputs (s : State) (a : Word) (w : Width) (v : Word) :
    (memWrite s a w v).inputs = s.inputs := rfl

@[simp] theorem memWrite_reads (s : State) (a : Word) (w : Width) (v : Word) :
    (memWrite s a w v).reads = s.reads := rfl

@[simp] theorem memWrite_handlers (s : State) (a : Word) (w : Width) (v : Word) :
    (memWrite s a w v).handlers = s.handlers := rfl

@[simp] theorem memWrite_free (s : State) (a : Word) (w : Width) (v : Word) :
    (memWrite s a w v).free = s.free := rfl

/-! ## `afterRead` -/

@[simp] theorem afterRead_cur (s : State) (a : Word) (w : Width) : (s.afterRead a w).cur = s.cur := rfl

@[simp] theorem afterRead_wp (s : State) (a : Word) (w : Width) : (s.afterRead a w).wp = s.wp := rfl

@[simp] theorem afterRead_err (s : State) (a : Word) (w : Width) : (s.afterRead a w).err = s.err := rfl

@[simp] theorem afterRead_txf (s : State) (a : Word) (w : Width) : (s.afterRead a w).txf = s.txf := rfl

@[simp] theorem afterRead_rxa (s : State) (a : Word) (w : Width) : (s.afterRead a w).rxa = s.rxa := rfl

@[simp] theorem afterRead_reg (s : State) (a : Word) (w : Width) : (s.afterRead a w).reg = s.reg := rfl

@[simp] theorem afterRead_idlePending (s : State) (a : Word) (w : Width) :
    (s.afterRead a w).idlePending = s.idlePending := rfl

@[simp] theorem afterRead_tcPending (s : State) (a : Word) (w : Width) :
    (s.afterRead a w).tcPending = s.tcPending := rfl

@[simp] theorem afterRead_rxbuf (s : State) (a : Word) (w : Width) : (s.afterRead a w).rxbuf = s.rxbuf := rfl

@[simp] theorem afterRead_mem (s : State) (a : Word) (w : Width) : (s.afterRead a w).mem = s.mem := rfl

@[simp] theorem afterRead_tx (s : State) (a : Word) (w : Width) : (s.afterRead a w).tx = s.tx := rfl

@[simp] theorem afterRead_phase (s : State) (a : Word) (w : Width) : (s.afterRead a w).phase = s.phase := rfl

@[simp] theorem afterRead_outcome (s : State) (a : Word) (w : Width) :
    (s.afterRead a w).outcome = s.outcome := rfl

@[simp] theorem afterRead_memLog (s : State) (a : Word) (w : Width) :
    (s.afterRead a w).memLog = s.memLog ++ [⟨.read, a, w, s.readValue a w⟩] := rfl

@[simp] theorem afterRead_calls (s : State) (a : Word) (w : Width) : (s.afterRead a w).calls = s.calls := rfl

@[simp] theorem afterRead_inputs (s : State) (a : Word) (w : Width) :
    (s.afterRead a w).inputs = s.inputs := rfl

@[simp] theorem afterRead_reads (s : State) (a : Word) (w : Width) :
    (s.afterRead a w).reads = s.reads.tail := rfl

@[simp] theorem afterRead_handlers (s : State) (a : Word) (w : Width) :
    (s.afterRead a w).handlers = s.handlers := rfl

@[simp] theorem afterRead_free (s : State) (a : Word) (w : Width) : (s.afterRead a w).free = s.free := rfl

/-! ## `transportError` -/

@[simp] theorem transportError_cur (s : State) : s.transportError.cur = s.cur := rfl

@[simp] theorem transportError_wp (s : State) : s.transportError.wp = s.wp := rfl

@[simp] theorem transportError_err (s : State) : s.transportError.err = true := rfl

@[simp] theorem transportError_txf (s : State) : s.transportError.txf = s.txf := rfl

@[simp] theorem transportError_rxa (s : State) : s.transportError.rxa = s.rxa := rfl

@[simp] theorem transportError_reg (s : State) : s.transportError.reg = s.reg := rfl

@[simp] theorem transportError_idlePending (s : State) : s.transportError.idlePending = s.idlePending := rfl

@[simp] theorem transportError_tcPending (s : State) : s.transportError.tcPending = s.tcPending := rfl

@[simp] theorem transportError_rxbuf (s : State) : s.transportError.rxbuf = s.rxbuf := rfl

@[simp] theorem transportError_mem (s : State) : s.transportError.mem = s.mem := rfl

@[simp] theorem transportError_tx (s : State) : s.transportError.tx = s.tx := rfl

@[simp] theorem transportError_phase (s : State) : s.transportError.phase = .rest := rfl

@[simp] theorem transportError_outcome (s : State) : s.transportError.outcome = some .transportError := rfl

@[simp] theorem transportError_memLog (s : State) : s.transportError.memLog = s.memLog := rfl

@[simp] theorem transportError_calls (s : State) : s.transportError.calls = s.calls := rfl

@[simp] theorem transportError_inputs (s : State) : s.transportError.inputs = s.inputs := rfl

@[simp] theorem transportError_reads (s : State) : s.transportError.reads = s.reads := rfl

@[simp] theorem transportError_handlers (s : State) : s.transportError.handlers = s.handlers := rfl

@[simp] theorem transportError_free (s : State) : s.transportError.free = s.free := rfl

/-! ## `formatError` -/

@[simp] theorem formatError_cur (s : State) (n : Nat) (c : FormatCause) :
    (s.formatError n c).cur = s.cur + n := rfl

@[simp] theorem formatError_wp (s : State) (n : Nat) (c : FormatCause) : (s.formatError n c).wp = s.wp := rfl

@[simp] theorem formatError_err (s : State) (n : Nat) (c : FormatCause) :
    (s.formatError n c).err = s.err := rfl

@[simp] theorem formatError_txf (s : State) (n : Nat) (c : FormatCause) :
    (s.formatError n c).txf = s.txf := rfl

@[simp] theorem formatError_rxa (s : State) (n : Nat) (c : FormatCause) :
    (s.formatError n c).rxa = s.rxa := rfl

@[simp] theorem formatError_reg (s : State) (n : Nat) (c : FormatCause) :
    (s.formatError n c).reg = s.reg := rfl

@[simp] theorem formatError_idlePending (s : State) (n : Nat) (c : FormatCause) :
    (s.formatError n c).idlePending = s.idlePending := rfl

@[simp] theorem formatError_tcPending (s : State) (n : Nat) (c : FormatCause) :
    (s.formatError n c).tcPending = s.tcPending := rfl

@[simp] theorem formatError_rxbuf (s : State) (n : Nat) (c : FormatCause) :
    (s.formatError n c).rxbuf = s.rxbuf := rfl

@[simp] theorem formatError_mem (s : State) (n : Nat) (c : FormatCause) :
    (s.formatError n c).mem = s.mem := rfl

@[simp] theorem formatError_tx (s : State) (n : Nat) (c : FormatCause) : (s.formatError n c).tx = s.tx := rfl

@[simp] theorem formatError_phase (s : State) (n : Nat) (c : FormatCause) :
    (s.formatError n c).phase = s.phase := rfl

@[simp] theorem formatError_outcome (s : State) (n : Nat) (c : FormatCause) :
    (s.formatError n c).outcome = some (.formatError n c) := rfl

@[simp] theorem formatError_memLog (s : State) (n : Nat) (c : FormatCause) :
    (s.formatError n c).memLog = s.memLog := rfl

@[simp] theorem formatError_calls (s : State) (n : Nat) (c : FormatCause) :
    (s.formatError n c).calls = s.calls := rfl

@[simp] theorem formatError_inputs (s : State) (n : Nat) (c : FormatCause) :
    (s.formatError n c).inputs = s.inputs := rfl

@[simp] theorem formatError_reads (s : State) (n : Nat) (c : FormatCause) :
    (s.formatError n c).reads = s.reads := rfl

@[simp] theorem formatError_handlers (s : State) (n : Nat) (c : FormatCause) :
    (s.formatError n c).handlers = s.handlers := rfl

@[simp] theorem formatError_free (s : State) (n : Nat) (c : FormatCause) :
    (s.formatError n c).free = s.free := rfl

/-! ## `consumed` -/

@[simp] theorem consumed_cur (s : State) (ctx : FrameCtx) : (s.consumed ctx).cur = s.cur + ctx.total := rfl

@[simp] theorem consumed_wp (s : State) (ctx : FrameCtx) : (s.consumed ctx).wp = s.wp := rfl

@[simp] theorem consumed_err (s : State) (ctx : FrameCtx) : (s.consumed ctx).err = s.err := rfl

@[simp] theorem consumed_txf (s : State) (ctx : FrameCtx) : (s.consumed ctx).txf = s.txf := rfl

@[simp] theorem consumed_rxa (s : State) (ctx : FrameCtx) : (s.consumed ctx).rxa = s.rxa := rfl

@[simp] theorem consumed_reg (s : State) (ctx : FrameCtx) : (s.consumed ctx).reg = s.reg := rfl

@[simp] theorem consumed_idlePending (s : State) (ctx : FrameCtx) :
    (s.consumed ctx).idlePending = s.idlePending := rfl

@[simp] theorem consumed_tcPending (s : State) (ctx : FrameCtx) :
    (s.consumed ctx).tcPending = s.tcPending := rfl

@[simp] theorem consumed_rxbuf (s : State) (ctx : FrameCtx) : (s.consumed ctx).rxbuf = s.rxbuf := rfl

@[simp] theorem consumed_mem (s : State) (ctx : FrameCtx) : (s.consumed ctx).mem = s.mem := rfl

@[simp] theorem consumed_tx (s : State) (ctx : FrameCtx) : (s.consumed ctx).tx = s.tx := rfl

@[simp] theorem consumed_phase (s : State) (ctx : FrameCtx) : (s.consumed ctx).phase = .parse ctx.wp := rfl

@[simp] theorem consumed_outcome (s : State) (ctx : FrameCtx) :
    (s.consumed ctx).outcome = some (.consumed ctx.total) := rfl

@[simp] theorem consumed_memLog (s : State) (ctx : FrameCtx) : (s.consumed ctx).memLog = s.memLog := rfl

@[simp] theorem consumed_calls (s : State) (ctx : FrameCtx) : (s.consumed ctx).calls = s.calls := rfl

@[simp] theorem consumed_inputs (s : State) (ctx : FrameCtx) : (s.consumed ctx).inputs = s.inputs := rfl

@[simp] theorem consumed_reads (s : State) (ctx : FrameCtx) : (s.consumed ctx).reads = s.reads := rfl

@[simp] theorem consumed_handlers (s : State) (ctx : FrameCtx) : (s.consumed ctx).handlers = s.handlers := rfl

@[simp] theorem consumed_free (s : State) (ctx : FrameCtx) : (s.consumed ctx).free = s.free := rfl

/-! ## `syncOutcome` -/

@[simp] theorem syncOutcome_cur (s : State) : s.syncOutcome.cur = s.cur := rfl

@[simp] theorem syncOutcome_wp (s : State) : s.syncOutcome.wp = s.wp := rfl

@[simp] theorem syncOutcome_err (s : State) : s.syncOutcome.err = s.err := rfl

@[simp] theorem syncOutcome_txf (s : State) : s.syncOutcome.txf = s.txf := rfl

@[simp] theorem syncOutcome_rxa (s : State) : s.syncOutcome.rxa = s.rxa := rfl

@[simp] theorem syncOutcome_reg (s : State) : s.syncOutcome.reg = s.reg := rfl

@[simp] theorem syncOutcome_idlePending (s : State) : s.syncOutcome.idlePending = s.idlePending := rfl

@[simp] theorem syncOutcome_tcPending (s : State) : s.syncOutcome.tcPending = s.tcPending := rfl

@[simp] theorem syncOutcome_rxbuf (s : State) : s.syncOutcome.rxbuf = s.rxbuf := rfl

@[simp] theorem syncOutcome_mem (s : State) : s.syncOutcome.mem = s.mem := rfl

@[simp] theorem syncOutcome_tx (s : State) : s.syncOutcome.tx = s.tx := rfl

@[simp] theorem syncOutcome_phase (s : State) : s.syncOutcome.phase = .rest := rfl

@[simp] theorem syncOutcome_outcome (s : State) : s.syncOutcome.outcome = some .sync := rfl

@[simp] theorem syncOutcome_memLog (s : State) : s.syncOutcome.memLog = s.memLog := rfl

@[simp] theorem syncOutcome_calls (s : State) : s.syncOutcome.calls = s.calls := rfl

@[simp] theorem syncOutcome_inputs (s : State) : s.syncOutcome.inputs = s.inputs := rfl

@[simp] theorem syncOutcome_reads (s : State) : s.syncOutcome.reads = s.reads := rfl

@[simp] theorem syncOutcome_handlers (s : State) : s.syncOutcome.handlers = s.handlers := rfl

@[simp] theorem syncOutcome_free (s : State) : s.syncOutcome.free = s.free := rfl

/-! ## `needMoreBytes` -/

@[simp] theorem needMoreBytes_cur (s : State) (n : Nat) : (s.needMoreBytes n).cur = s.cur := rfl

@[simp] theorem needMoreBytes_wp (s : State) (n : Nat) : (s.needMoreBytes n).wp = s.wp := rfl

@[simp] theorem needMoreBytes_err (s : State) (n : Nat) : (s.needMoreBytes n).err = s.err := rfl

@[simp] theorem needMoreBytes_txf (s : State) (n : Nat) : (s.needMoreBytes n).txf = s.txf := rfl

@[simp] theorem needMoreBytes_rxa (s : State) (n : Nat) : (s.needMoreBytes n).rxa = s.rxa := rfl

@[simp] theorem needMoreBytes_reg (s : State) (n : Nat) : (s.needMoreBytes n).reg = s.reg := rfl

@[simp] theorem needMoreBytes_idlePending (s : State) (n : Nat) :
    (s.needMoreBytes n).idlePending = s.idlePending := rfl

@[simp] theorem needMoreBytes_tcPending (s : State) (n : Nat) :
    (s.needMoreBytes n).tcPending = s.tcPending := rfl

@[simp] theorem needMoreBytes_rxbuf (s : State) (n : Nat) : (s.needMoreBytes n).rxbuf = s.rxbuf := rfl

@[simp] theorem needMoreBytes_mem (s : State) (n : Nat) : (s.needMoreBytes n).mem = s.mem := rfl

@[simp] theorem needMoreBytes_tx (s : State) (n : Nat) : (s.needMoreBytes n).tx = s.tx := rfl

@[simp] theorem needMoreBytes_phase (s : State) (n : Nat) : (s.needMoreBytes n).phase = .rest := rfl

@[simp] theorem needMoreBytes_outcome (s : State) (n : Nat) :
    (s.needMoreBytes n).outcome = some (.needMoreBytes n) := rfl

@[simp] theorem needMoreBytes_memLog (s : State) (n : Nat) : (s.needMoreBytes n).memLog = s.memLog := rfl

@[simp] theorem needMoreBytes_calls (s : State) (n : Nat) : (s.needMoreBytes n).calls = s.calls := rfl

@[simp] theorem needMoreBytes_inputs (s : State) (n : Nat) : (s.needMoreBytes n).inputs = s.inputs := rfl

@[simp] theorem needMoreBytes_reads (s : State) (n : Nat) : (s.needMoreBytes n).reads = s.reads := rfl

@[simp] theorem needMoreBytes_handlers (s : State) (n : Nat) :
    (s.needMoreBytes n).handlers = s.handlers := rfl

@[simp] theorem needMoreBytes_free (s : State) (n : Nat) : (s.needMoreBytes n).free = s.free := rfl

/-! ## `invoke` -/

@[simp] theorem invoke_cur (s : State) (h : HandlerId) (b : List Byte) (n : Nat) :
    (s.invoke h b n).cur = s.cur := rfl

@[simp] theorem invoke_wp (s : State) (h : HandlerId) (b : List Byte) (n : Nat) :
    (s.invoke h b n).wp = s.wp := rfl

@[simp] theorem invoke_err (s : State) (h : HandlerId) (b : List Byte) (n : Nat) :
    (s.invoke h b n).err = s.err := rfl

@[simp] theorem invoke_txf (s : State) (h : HandlerId) (b : List Byte) (n : Nat) :
    (s.invoke h b n).txf = s.txf := rfl

@[simp] theorem invoke_rxa (s : State) (h : HandlerId) (b : List Byte) (n : Nat) :
    (s.invoke h b n).rxa = s.rxa := rfl

@[simp] theorem invoke_reg (s : State) (h : HandlerId) (b : List Byte) (n : Nat) :
    (s.invoke h b n).reg = s.reg := rfl

@[simp] theorem invoke_idlePending (s : State) (h : HandlerId) (b : List Byte) (n : Nat) :
    (s.invoke h b n).idlePending = s.idlePending := rfl

@[simp] theorem invoke_tcPending (s : State) (h : HandlerId) (b : List Byte) (n : Nat) :
    (s.invoke h b n).tcPending = s.tcPending := rfl

@[simp] theorem invoke_rxbuf (s : State) (h : HandlerId) (b : List Byte) (n : Nat) :
    (s.invoke h b n).rxbuf = s.rxbuf := rfl

@[simp] theorem invoke_mem (s : State) (h : HandlerId) (b : List Byte) (n : Nat) :
    (s.invoke h b n).mem = s.mem := rfl

@[simp] theorem invoke_tx (s : State) (h : HandlerId) (b : List Byte) (n : Nat) :
    (s.invoke h b n).tx = s.tx := rfl

@[simp] theorem invoke_phase (s : State) (h : HandlerId) (b : List Byte) (n : Nat) :
    (s.invoke h b n).phase = .handler h b ⟨n, s.sampledWp⟩ := rfl

@[simp] theorem invoke_outcome (s : State) (h : HandlerId) (b : List Byte) (n : Nat) :
    (s.invoke h b n).outcome = s.outcome := rfl

@[simp] theorem invoke_memLog (s : State) (h : HandlerId) (b : List Byte) (n : Nat) :
    (s.invoke h b n).memLog = s.memLog := rfl

@[simp] theorem invoke_calls (s : State) (h : HandlerId) (b : List Byte) (n : Nat) :
    (s.invoke h b n).calls = s.calls := rfl

@[simp] theorem invoke_inputs (s : State) (h : HandlerId) (b : List Byte) (n : Nat) :
    (s.invoke h b n).inputs = s.inputs := rfl

@[simp] theorem invoke_reads (s : State) (h : HandlerId) (b : List Byte) (n : Nat) :
    (s.invoke h b n).reads = s.reads := rfl

@[simp] theorem invoke_handlers (s : State) (h : HandlerId) (b : List Byte) (n : Nat) :
    (s.invoke h b n).handlers = s.handlers := rfl

@[simp] theorem invoke_free (s : State) (h : HandlerId) (b : List Byte) (n : Nat) :
    (s.invoke h b n).free = s.free := rfl

end Sys2Proof.Machine
end

