-- ==== Sys2Proof/Laws/Ops.lean ====
section
/-! SUPPORT. What the shared operations do, said once: accesses to `MEM`, the receive buffer, the registry, the
Transmit Path. -/

namespace Sys2Proof.Machine

@[simp] theorem memRead_fst (s : State) (a : Word) (w : Width) : (memRead s a w).1 = s.readValue a w := rfl

@[simp] theorem memRead_snd (s : State) (a : Word) (w : Width) : (memRead s a w).2 = s.afterRead a w := rfl

/-! ## `MEM` -/

@[simp] theorem memByte_afterRead (s : State) (a : Word) (w : Width) (x : Nat) :
    (s.afterRead a w).memByte x = s.memByte x := rfl

@[simp] theorem memByte_transmit (s : State) (size : Half) (data : List Byte) (x : Nat) :
    (transmit s size data).memByte x = s.memByte x := rfl

theorem memByte_memWrite_inside (s : State) (a : Word) (w : Width) (v : Word) (k : Nat) (hk : k < w.bytes) :
    (memWrite s a w v).memByte (a.toNat + k) = v.extractLsb' (8 * k) 8 := by
  have h := Memory.get?_store_inside s.mem a.toNat (bytesLe v w.bytes) k (by simpa using hk)
  simp only [State.memByte, memWrite_mem, h]
  simp [bytesLe]

theorem memByte_memWrite_outside (s : State) (a : Word) (w : Width) (v : Word) (x : Nat)
    (hx : x < a.toNat ∨ a.toNat + w.bytes ≤ x) : (memWrite s a w v).memByte x = s.memByte x := by
  have h := Memory.get?_store_outside s.mem a.toNat (bytesLe v w.bytes) x (by simpa using hx)
  simp only [State.memByte, memWrite_mem, h]

theorem memBytes_getElem? (s : State) (a n k : Nat) (hk : k < n) : (s.memBytes a n)[k]? = some (s.memByte (a + k)) := by
  simp [State.memBytes, hk]

/-- A read that the environment does not answer returns the contents; one it answers returns the answer. -/
theorem readValue_answer (s : State) (a : Word) (w : Width) (v : Word) (rest : List (Option Word))
    (h : s.reads = some v :: rest) : s.readValue a w = truncTo w v := by
  simp [State.readValue, h]

theorem readValue_contents (s : State) (a : Word) (w : Width) (h : s.reads.head? = none ∨ s.reads.head? = some none) :
    s.readValue a w = le32 (s.memBytes a.toNat w.bytes) 0 := by
  unfold State.readValue
  split
  · simp_all
  · rfl

/-! ## The receive buffer -/

@[simp] theorem rxBytes_length (s : State) (lo hi : Nat) : (s.rxBytes lo hi).length = hi - lo := by
  simp [State.rxBytes]

theorem rxByte_storeRx (s : State) (b : Byte) (i : Nat) :
    (s.storeRx b).rxByte i = if i = s.storeAt then b else s.rxByte i := by
  simp only [State.rxByte, State.storeRx, Memory.get?_set]
  split <;> rfl

theorem rxBytes_split (s : State) (lo mid hi : Nat) (h1 : lo ≤ mid) (h2 : mid ≤ hi) :
    s.rxBytes lo hi = s.rxBytes lo mid ++ s.rxBytes mid hi := by
  apply List.ext_getElem
  · simp
    omega
  · intro k h3 h4
    by_cases hk : k < mid - lo
    · rw [List.getElem_append_left (by simpa using hk)]
      simp [State.rxBytes]
    · rw [List.getElem_append_right (by simp; omega)]
      simp [State.rxBytes, show mid + (k - (mid - lo)) = lo + k by omega]

/-- The size field at the cursor is the two bytes of the buffer there. -/
theorem le16_rxBytes (s : State) (lo hi : Nat) (h : 2 ≤ hi - lo) :
    le16 (s.rxBytes lo hi) 0 = s.rxByte (lo + 1) ++ s.rxByte lo := by
  simp only [le16, State.rxBytes, List.getD_eq_getElem?_getD]
  simp [List.getElem?_map, show 0 < hi - lo by omega, show 1 < hi - lo by omega]

/-! ## Payloads and the registry -/

/-- The first colon of `key : body`, where the key has none, stands right behind the key. -/
theorem colonIndex_append (key body : List Byte) (h : ∀ b ∈ key, b ≠ Config.sep) :
    colonIndex (key ++ Config.sep :: body) = some key.length := by
  induction key with
  | nil => simp [colonIndex, List.findIdx?_cons]
  | cons b rest ih =>
    have hb : (b == Config.sep) = false := by simpa using h b (by simp)
    have := ih fun b hb => h b (by simp [hb])
    simp only [colonIndex, List.cons_append, List.findIdx?_cons, hb] at this ⊢
    simp [this]

theorem colonIndex_none (payload : List Byte) (h : ∀ b ∈ payload, b ≠ Config.sep) : colonIndex payload = none := by
  simpa [colonIndex] using h

@[simp] theorem keyOf_append (key body : List Byte) : keyOf (key ++ Config.sep :: body) key.length = key := by
  simp [keyOf]

@[simp] theorem bodyOf_append (key body : List Byte) : bodyOf (key ++ Config.sep :: body) key.length = body := by
  simp [bodyOf, List.drop_append]

/-! ## The Transmit Path -/

@[simp] theorem sentData_length (s : State) (size : Half) (data : List Byte) :
    (s.sentData size data).length = size.toNat := by
  simp [State.sentData]
  omega

/-- Where the data is long enough, its first `size` bytes are sent. -/
theorem sentData_of_le (s : State) (size : Half) (data : List Byte) (h : size.toNat ≤ data.length) :
    s.sentData size data = data.take size.toNat := by
  simp [State.sentData, Nat.sub_eq_zero_of_le h]

/-! ## Composite operations -/

theorem readModifyWrite_eq (s : State) (a : Word) (f : Word → Word) :
    readModifyWrite s a f = memWrite (s.afterRead a .word) a .word (f (s.readValue a .word)) := rfl

theorem readAndReply_eq (s : State) (a : Word) (w : Width) :
    readAndReply s a w =
      transmit (s.afterRead a w) (BitVec.ofNat 16 w.bytes) (bytesLe (s.readValue a w) w.bytes) := rfl

end Sys2Proof.Machine
end

