-- ==== Sys2Proof/Laws/Access.lean ====
section
/-! SUPPORT. Words of `MEM`, masked addresses, read-modify-write and the Transmit Path as single updates. -/

namespace Sys2Proof.Machine

/-- Byte `k` of the word at an address is the byte of `MEM` there. -/
theorem memWord_bytes (s : State) (a : Nat) (k : Nat) (hk : k < 4) :
    (s.memWord a).extractLsb' (8 * k) 8 = s.memByte (a + k) := by
  rw [State.memWord, le32_byte _ _ hk]
  interval_cases k <;> simp [State.memBytes, List.range_succ]

/-- The word written is the word at the address. -/
theorem memWord_write (s : State) (a v : Word) : (memWrite s a .word v).memWord a.toNat = v := by
  apply word_ext
  intro k hk
  rw [memWord_bytes _ _ _ hk, memByte_memWrite_inside _ _ _ _ _ hk]

/-- A masked address is aligned, and its word lies in the address space (R57). -/
theorem aligned_bound (addr : Word) : (maskAddr addr).toNat + 3 < 2 ^ 32 ∧ (maskAddr addr) &&& 3 = 0 := by
  constructor
  · have : maskAddr addr ≤ 0xFFFFFFFC := by
      simp only [maskAddr, BitVec.le_def, BitVec.toNat_and]
      exact Nat.and_le_right
    simp [BitVec.le_def] at this
    omega
  · simp [maskAddr, BitVec.and_assoc]

/-- Masking leaves an aligned address alone. -/
theorem maskAddr_of_aligned (a : Word) (ha : a &&& 3 = 0) : maskAddr a = a := by
  apply BitVec.eq_of_getElem_eq
  intro i hi
  have h2 : (a &&& 3)[i] = false := by rw [ha]; simp
  simp only [maskAddr, BitVec.getElem_and] at h2 ⊢
  interval_cases i <;> simp_all

/-- A read-modify-write stores the function of the value read. -/
theorem rmw_mem (s : State) (a : Word) (f : Word → Word) :
    (readModifyWrite s a f).memWord a.toNat = f (s.readValue a .word) := by
  rw [readModifyWrite_eq, memWord_write]

/-- It leaves every other byte of `MEM` alone. -/
theorem rmw_out (s : State) (a : Word) (f : Word → Word) : MemSameOutside s (readModifyWrite s a f) a.toNat 4 := by
  intro x hx
  rw [readModifyWrite_eq, memByte_memWrite_outside _ _ _ _ _ hx]; rfl

/-- It changes nothing but `MEM`, the record of accesses and the answers. -/
theorem rmw_eq (s : State) (a : Word) (f : Word → Word) : readModifyWrite s a f = { s with
        mem := (readModifyWrite s a f).mem
        memLog := s.memLog ++ [⟨.read, a, .word, s.readValue a .word⟩, ⟨.write, a, .word, f (s.readValue a .word)⟩]
        reads := s.reads.tail } := by
  rw [readModifyWrite_eq]
  simp [memWrite, State.afterRead, State.logAccess]

/-- A transmission of data of the stated length, as one update. -/
theorem transmit_eq (s : State) (size : Half) (data : List Byte) (h : data.length = size.toNat) :
   transmit s size data = { s with
      cur := 0, wp := 0, err := false, txf := true, rxa := true, idlePending := false, tcPending := false
      tx := s.tx ++ (bytesLe size 2 ++ data ++ bytesLe (Config.crc16 data) 2) } := by
  have e : s.sentData size data = data := by rw [sentData_of_le _ _ _ (by omega), ← h]; simp
  unfold transmit
  simp only [e]
  simp [State.restart, State.stopReceive, State.start, State.startReceive, State.dropEvents, State.markTransmitted,
    State.txBytes, envelope, h]

/-- The handshake, as one update (R173). -/
theorem handshake_eq (s : State) :
    handshake s = { s with
      cur := 0, wp := 0, err := false, txf := false, rxa := true, idlePending := false, tcPending := false
      tx := s.tx ++ ([0x02, 0x00, 0x4F, 0x4B] ++ bytesLe (Config.crc16 [0x4F, 0x4B]) 2) } := by
  rw [handshake, transmit_eq _ _ _ (by decide), show bytesLe (2 : Half) 2 = [0x02, 0x00] by decide]
  rfl

end Sys2Proof.Machine
end

