-- ==== Sys2Proof/Laws/Agents.lean ====
section
/-! SUPPORT. What the acts of the other agents and the beginnings of the two event steps do, said once. -/

namespace Sys2Proof.Machine

theorem byteArrives_stopped (s : State) (b : Byte) (h : s.rxa = false) : s.byteArrives b = s := by
  simp [State.byteArrives, h]

theorem byteArrives_active (s : State) (b : Byte) (h : s.rxa = true) :
    s.byteArrives b = { s.storeRx b with tcPending := s.tcPending || decide (s.storeAt + 1 = Config.rxCap) } := by
  unfold State.byteArrives
  rw [if_pos h]
  by_cases hc : s.storeAt + 1 = Config.rxCap
  · simp [State.storeRx, State.raiseTransferComplete, hc]
  · simp [State.storeRx, hc]

theorem raiseIdle_stopped (s : State) (h : s.rxa = false) : s.raiseIdle = s := by simp [State.raiseIdle, h]

theorem raiseIdle_active (s : State) (h : s.rxa = true) : s.raiseIdle = { s with idlePending := true } := by
  simp [State.raiseIdle, h]

theorem registerHandler_ignored (s : State) (key : List Byte) (h : HandlerId)
    (hc : key.length > 7 ∨ s.regn = 16) : s.registerHandler key h = s := by
  unfold State.registerHandler
  split
  · rfl
  · split
    · rfl
    · rcases hc with hc | hc
      · exact absurd hc ‹_›
      · exact absurd hc ‹_›

theorem registerHandler_appends (s : State) (key : List Byte) (h : HandlerId) (hk : key.length ≤ 7)
    (hn : s.regn ≠ 16) : s.registerHandler key h = { s with reg := s.reg ++ [⟨key, h⟩] } := by
  unfold State.registerHandler
  rw [if_neg (show ¬key.length > Config.keyMax from Nat.not_lt.2 hk),
    if_neg (show ¬s.regn = Config.regSlots from hn)]

/-! ## Events -/

/-- The event handled next is a pending one, and the transfer-complete event where both are pending and the fill has
wrapped. -/
theorem nextEvent_cases (s : State) (first : Event) :
    (s.idlePending = false ∧ s.tcPending = false ∧ s.nextEvent first = none) ∨
    (s.idlePending = true ∧ s.nextEvent first = some .idle ∧
      (s.tcPending = false ∨ s.wp = Config.rxCap ∧ first = .idle)) ∨
    (s.tcPending = true ∧ s.nextEvent first = some .transferComplete) := by
  unfold State.nextEvent
  cases s.idlePending <;> cases s.tcPending <;> simp
  by_cases h : s.wp = Config.rxCap <;> cases first <;> simp [h]

theorem nextEvent_only_idle (s : State) (first : Event) (h1 : s.idlePending = true) (h2 : s.tcPending = false) :
    s.nextEvent first = some .idle := by simp [State.nextEvent, h1, h2]

theorem nextEvent_only_tc (s : State) (first : Event) (h1 : s.idlePending = false) (h2 : s.tcPending = true) :
    s.nextEvent first = some .transferComplete := by simp [State.nextEvent, h1, h2]

theorem nextEvent_both (s : State) (first : Event) (h1 : s.idlePending = true) (h2 : s.tcPending = true) :
    s.nextEvent first = some (if s.wp = Config.rxCap then first else .transferComplete) := by
  simp [State.nextEvent, h1, h2]

theorem serve_some (s : State) (first e : Event) (h : s.nextEvent first = some e) :
    s.serve first = s.handleEvent e := by simp [State.serve, h]

theorem serve_none (s : State) (first : Event) (h : s.nextEvent first = none) : s.serve first = s := by
  simp [State.serve, h]

theorem handleIdle_stopped (s : State) (h : s.rxa = false) :
    s.handleEvent .idle = { s with idlePending := false } := by
  simp [State.handleEvent, State.beginIdle, h]

theorem handleIdle_latched (s : State) (h : s.rxa = true) (he : s.err = true) :
    s.handleEvent .idle = { s with idlePending := false, phase := .tail s.wp } := by
  simp [State.handleEvent, State.beginIdle, h, he]

theorem handleIdle_behind (s : State) (h : s.rxa = true) (he : s.err = false) (hw : s.wp < s.cur) :
    s.handleEvent .idle = { s with idlePending := false, err := true } := by
  simp [State.handleEvent, State.beginIdle, h, he, hw, State.latch]

theorem handleIdle_parse (s : State) (h : s.rxa = true) (he : s.err = false) (hw : s.cur ≤ s.wp) :
    s.handleEvent .idle = { s with idlePending := false, phase := .parse s.wp } := by
  simp [State.handleEvent, State.beginIdle, h, he, Nat.not_lt.2 hw]

theorem handleTc_stopped (s : State) (h : s.rxa = false) :
    s.handleEvent .transferComplete = { s with tcPending := false } := by
  simp [State.handleEvent, State.transferComplete, h]

theorem handleTc_active (s : State) (h : s.rxa = true) :
    s.handleEvent .transferComplete = { s with tcPending := false, err := true } := by
  simp [State.handleEvent, State.transferComplete, h, State.latch]

theorem start_eq (s : State) :
    s.start = { s with
      cur := 0, wp := 0, err := false, rxa := true, idlePending := false, tcPending := false } := rfl

/-! ## One act, inverted -/

/-- What an act of another agent can have done. -/
inductive AgentEffect (s : State) : Input → State → Prop
  | stored (b : Byte) (hr : s.rxa = true) : AgentEffect s (.byte b)
      { s.storeRx b with tcPending := s.tcPending || decide (s.storeAt + 1 = Config.rxCap) }
  | lost (b : Byte) (hr : s.rxa = false) : AgentEffect s (.byte b) s
  | raised (hr : s.rxa = true) : AgentEffect s .raiseIdle { s with idlePending := true }
  | dropped (hr : s.rxa = false) : AgentEffect s .raiseIdle s
  | noEvent (f : Event) (he : s.nextEvent f = none) : AgentEffect s (.serve f) s
  | idleStopped (f : Event) (he : s.nextEvent f = some .idle) (hr : s.rxa = false) :
      AgentEffect s (.serve f) { s with idlePending := false }
  | idleLatched (f : Event) (he : s.nextEvent f = some .idle) (hr : s.rxa = true) (herr : s.err = true) :
      AgentEffect s (.serve f) { s with idlePending := false, phase := .tail s.wp }
  | idleBehind (f : Event) (he : s.nextEvent f = some .idle) (hr : s.rxa = true) (herr : s.err = false)
      (hw : s.wp < s.cur) : AgentEffect s (.serve f) { s with idlePending := false, err := true }
  | idleParse (f : Event) (he : s.nextEvent f = some .idle) (hr : s.rxa = true) (herr : s.err = false)
      (hw : s.cur ≤ s.wp) : AgentEffect s (.serve f) { s with idlePending := false, phase := .parse s.wp }
  | tcStopped (f : Event) (he : s.nextEvent f = some .transferComplete) (hr : s.rxa = false) :
      AgentEffect s (.serve f) { s with tcPending := false }
  | tcActive (f : Event) (he : s.nextEvent f = some .transferComplete) (hr : s.rxa = true) :
      AgentEffect s (.serve f) { s with tcPending := false, err := true }
  | ignored (key : List Byte) (h : HandlerId) (hc : key.length > 7 ∨ s.regn = 16) : AgentEffect s (.register key h) s
  | registered (key : List Byte) (h : HandlerId) (hk : key.length ≤ 7) (hn : s.regn ≠ 16) :
      AgentEffect s (.register key h) { s with reg := s.reg ++ [⟨key, h⟩] }
  | started : AgentEffect s .start s.start
  | memChanged (cells : List Host.Cell) : AgentEffect s (.memWrite cells) { s with mem := s.mem.change cells }

theorem AgentEffect.of_eq {s t u : State} {i : Input} (h : t = u) (e : AgentEffect s i u) : AgentEffect s i t :=
  h ▸ e

theorem agentStep_effect (s : State) (input : Input) : AgentEffect s input (s.agentStep input) := by
  have hb : ∀ b : Bool, b = true ∨ b = false := by decide
  cases input with
  | byte b =>
    rcases hb s.rxa with hr | hr
    · exact .of_eq (byteArrives_active s b hr) (.stored b hr)
    · exact .of_eq (byteArrives_stopped s b hr) (.lost b hr)
  | raiseIdle =>
    rcases hb s.rxa with hr | hr
    · exact .of_eq (raiseIdle_active s hr) (.raised hr)
    · exact .of_eq (raiseIdle_stopped s hr) (.dropped hr)
  | serve f =>
    cases he : s.nextEvent f with
    | none => exact .of_eq (serve_none s f he) (.noEvent f he)
    | some e =>
      rw [State.agentStep, serve_some s f e he]
      cases e with
      | idle =>
        rcases hb s.rxa with hr | hr
        · rcases hb s.err with herr | herr
          · exact .of_eq (handleIdle_latched s hr herr) (.idleLatched f he hr herr)
          · rcases Nat.lt_or_ge s.wp s.cur with hw | hw
            · exact .of_eq (handleIdle_behind s hr herr hw) (.idleBehind f he hr herr hw)
            · exact .of_eq (handleIdle_parse s hr herr hw) (.idleParse f he hr herr hw)
        · exact .of_eq (handleIdle_stopped s hr) (.idleStopped f he hr)
      | transferComplete =>
        rcases hb s.rxa with hr | hr
        · exact .of_eq (handleTc_active s hr) (.tcActive f he hr)
        · exact .of_eq (handleTc_stopped s hr) (.tcStopped f he hr)
  | register key h =>
    by_cases hc : key.length > 7 ∨ s.regn = 16
    · exact .of_eq (registerHandler_ignored s key h hc) (.ignored key h hc)
    · rw [not_or] at hc
      exact .of_eq (registerHandler_appends s key h (by omega) hc.2) (.registered key h (by omega) hc.2)
  | start => exact .started
  | memWrite cells => exact .memChanged cells

end Sys2Proof.Machine
end

