-- ==== Sys2Proof/Laws/Crc.lean ====
section
/-! SUPPORT. The parameters of R6 and R8: the capacity lies in its range, and every function `CRC16` may be has
property P2 (the reference instance has it, proved here; the collaborator's choice carries it). -/

namespace Sys2Proof.Config

theorem rxCap_ge : 6 ≤ rxCap := Nat.le_add_right _ _

theorem rxCap_le : rxCap ≤ 65535 := by
  have := Nat.mod_lt rxCapChoice (show 65530 > 0 by decide)
  unfold rxCap
  omega

theorem shiftLeft_one_inj {a b : Half} (h : a <<< 1 = b <<< 1) (hm : a.msb = b.msb) : a = b := by
  apply BitVec.eq_of_getElem_eq
  intro i hi
  by_cases h15 : i = 15
  · subst h15
    simpa [BitVec.msb_eq_getLsbD_last] using hm
  · have h1 : (a <<< 1)[i + 1]'(by omega) = (b <<< 1)[i + 1]'(by omega) := by rw [h]
    simpa using h1

theorem crcShift_lsb (c : Half) : (crcShift c).getLsbD 0 = c.msb := by
  unfold crcShift
  split <;> simp_all

/-- The shift loses nothing: the bit shifted out can be read off bit 0. -/
theorem crcShift_injective {a b : Half} (h : crcShift a = crcShift b) : a = b := by
  have hm : a.msb = b.msb := by rw [← crcShift_lsb a, ← crcShift_lsb b, h]
  refine shiftLeft_one_inj ?_ hm
  unfold crcShift at h
  rw [hm] at h
  split at h
  · exact (BitVec.xor_left_inj _).1 h
  · exact h

theorem repeat_injective {α : Type} {f : α → α} (hf : ∀ {a b}, f a = f b → a = b) :
    ∀ (n : Nat) {a b : α}, Nat.repeat f n a = Nat.repeat f n b → a = b
  | 0, _, _, h => h
  | n + 1, _, _, h => repeat_injective hf n (hf h)

/-- The same byte keeps different registers different. -/
theorem crcByte_injective {a b : Half} {x : Byte} (h : crcByte a x = crcByte b x) : a = b :=
  (BitVec.xor_left_inj _).1 (repeat_injective crcShift_injective 8 h)

theorem highByte_inj {x y : Byte} (h : (x.zeroExtend 16 <<< 8 : Half) = y.zeroExtend 16 <<< 8) : x = y := by
  apply BitVec.eq_of_getElem_eq
  intro i hi
  have h1 : (x.zeroExtend 16 <<< 8 : Half)[i + 8]'(by omega) = (y.zeroExtend 16 <<< 8 : Half)[i + 8]'(by omega) := by
    rw [h]
  simpa [hi] using h1

/-- Different bytes into one register give different registers. -/
theorem crcByte_byte_injective {a : Half} {x y : Byte} (h : crcByte a x = crcByte a y) : x = y :=
  highByte_inj ((BitVec.xor_right_inj _).1 (repeat_injective crcShift_injective 8 h))

theorem foldl_crcByte_injective :
    ∀ (back : List Byte) {a b : Half}, back.foldl crcByte a = back.foldl crcByte b → a = b
  | [], _, _, h => h
  | _ :: rest, _, _, h => crcByte_injective (foldl_crcByte_injective rest h)

theorem flip_ne (b : Byte) (k : Fin 8) : b ≠ b ^^^ (1#8 <<< k.val) := by
  intro h
  have h0 : (0#8 : Byte) = 1#8 <<< k.val := by
    have := congrArg (b ^^^ ·) h
    simpa [← BitVec.xor_assoc] using this
  have hk : ∀ j : Fin 8, (0#8 : Byte) ≠ 1#8 <<< j.val := by decide
  exact hk k h0

/-- The reference instance has P2. -/
theorem crc16Ref_singleBitSensitive : SingleBitSensitive crc16Ref := by
  rintro p q ⟨front, back, b, k, rfl, rfl⟩ h
  simp only [crc16Ref, List.foldl_append, List.foldl_cons] at h
  exact flip_ne b k (crcByte_byte_injective (foldl_crcByte_injective back h))

/-- `CRC16` has P2, whatever the collaborator chose (R8). -/
theorem crc16_singleBitSensitive : SingleBitSensitive crc16 := by
  intro p q hpq
  unfold crc16
  split
  · rename_i f _
    exact f.property p q hpq
  · exact crc16Ref_singleBitSensitive p q hpq

end Sys2Proof.Config
end

