-- ==== Sys2Proof/Laws/Encoding.lean ====
section
/-! SUPPORT. Size fields and the bytes around them (30_encoding.md R71, R72). -/

namespace Sys2Proof

theorem legalSize_iff (n : Nat) : legalSize n = true ↔ 2 ≤ n ∧ n ≤ 65535 ∧ n ≠ 43605 := by
  have h : decide (Config.sizeMin ≤ n) = true ↔ 2 ≤ n := decide_eq_true_iff
  simp [legalSize, Config.syncMarker, and_assoc, h]

/-- A legal size is what its size field says. -/
theorem ofNat_of_legal {n : Nat} (h : legalSize n = true) :
    (BitVec.ofNat 16 n).toNat = n ∧ BitVec.ofNat 16 n ≠ Config.syncMarker := by
  obtain ⟨_, h2, h3⟩ := (legalSize_iff n).1 h
  have e : (BitVec.ofNat 16 n).toNat = n := by
    rw [BitVec.toNat_ofNat]
    omega
  refine ⟨e, fun hh => h3 ?_⟩
  rw [hh] at e
  exact e.symm

theorem half_low (x y : Byte) : (y ++ x : Half).extractLsb' 0 8 = x := by
  apply BitVec.eq_of_getElem_eq
  intro i hi
  simp only [BitVec.getElem_extractLsb', BitVec.getLsbD_append]
  simp [hi]

theorem half_high (x y : Byte) : (y ++ x : Half).extractLsb' 8 8 = y := by
  apply BitVec.eq_of_getElem_eq
  intro i hi
  simp only [BitVec.getElem_extractLsb', BitVec.getLsbD_append]
  simpa using BitVec.getLsbD_eq_getElem hi

/-- The first two bytes are those of the size field they hold. -/
theorem bytes_le16 (b : List Byte) (h : 2 ≤ b.length) : b = bytesLe (le16 b 0) 2 ++ b.drop 2 := by
  match b, h with
  | x :: y :: r, _ =>
    simp only [bytesLe_two, le16, List.getD_cons_zero, List.getD_cons_succ, half_low, half_high]
    rfl

theorem le16_drop (b : List Byte) (n i : Nat) : le16 (b.drop n) i = le16 b (n + i) := by
  simp [le16, List.getD_eq_getElem?_getD, List.getElem?_drop, Nat.add_assoc]

theorem le16_append_right (x y : List Byte) (n i : Nat) (h : n = x.length + i) : le16 (x ++ y) n = le16 y i := by
  subst h
  simp [le16, List.getD_eq_getElem?_getD, List.getElem?_append_right, Nat.add_assoc]

theorem le16_take (b : List Byte) (k i : Nat) (h : i + 1 < k) : le16 (b.take k) i = le16 b i := by
  simp [le16, List.getD_eq_getElem?_getD, List.getElem?_take, h, Nat.lt_of_succ_lt h]

/-! ## Envelopes (R71, R80) -/

@[simp] theorem envelope_length (size : Half) (data : List Byte) (crc : Half) :
    (envelope size data crc).length = data.length + 4 := by
  simp [envelope]
  omega

theorem envelope_append (size : Half) (data : List Byte) (crc : Half) (rest : List Byte) :
    envelope size data crc ++ rest = bytesLe size 2 ++ (data ++ (bytesLe crc 2 ++ rest)) := by
  simp [envelope, List.append_assoc]

theorem le16_envelope (size : Half) (data : List Byte) (crc : Half) (rest : List Byte) :
    le16 (envelope size data crc ++ rest) 0 = size := by
  rw [envelope_append, le16_bytesLe]

theorem data_envelope (size : Half) (data : List Byte) (crc : Half) (rest : List Byte) :
    ((envelope size data crc ++ rest).drop 2).take data.length = data := by
  rw [envelope_append, drop_bytesLe, List.take_left]

theorem crc_envelope (size : Half) (data : List Byte) (crc : Half) (rest : List Byte) :
    le16 (envelope size data crc ++ rest) (2 + data.length) = crc := by
  rw [envelope_append, le16_append_right _ _ _ data.length (by simp), le16_append_right _ _ _ 0 (by simp),
    le16_bytesLe]

theorem rest_envelope (size : Half) (data : List Byte) (crc : Half) (rest : List Byte) :
    (envelope size data crc ++ rest).drop (data.length + 4) = rest := by
  rw [← envelope_length size data crc, List.drop_left]

/-! ## The address word of a micro-instruction (R57, R83, R84) -/

theorem maskBit : ∀ i : Fin 32, (0xFFFFFFFC : Word).getLsbD i.val = decide (2 ≤ i.val) := by decide

theorem threeBit : ∀ i : Fin 32, (3 : Word).getLsbD i.val = decide (i.val < 2) := by decide

theorem alignedAddr_iff (addr : Word) : alignedAddr addr = true ↔ addr &&& 3 = 0 := by simp [alignedAddr]

/-- The low two bits of an aligned address are zero. -/
theorem getLsbD_of_aligned {addr : Word} (h : alignedAddr addr = true) {i : Nat} (hi : i < 2) :
    addr.getLsbD i = false := by
  have h1 : (addr &&& 3).getLsbD i = false := by rw [(alignedAddr_iff addr).1 h]; simp
  rw [BitVec.getLsbD_and, threeBit ⟨i, by omega⟩] at h1
  simpa [hi] using h1

/-- The address field of an address word is the address. -/
theorem maskAddr_addrWord {addr : Word} (op : BitVec 2) (h : alignedAddr addr = true) :
    maskAddr (addr ||| op.zeroExtend 32) = addr := by
  apply BitVec.eq_of_getLsbD_eq
  intro i hi
  have hm := maskBit ⟨i, hi⟩
  simp only at hm
  rw [maskAddr, BitVec.getLsbD_and, hm, BitVec.getLsbD_or]
  by_cases h2 : i < 2
  · simp [getLsbD_of_aligned h h2, Nat.not_le.2 h2]
  · have h3 : op.getLsbD i = false := BitVec.getLsbD_of_ge _ _ (by omega)
    simp [BitVec.getLsbD_setWidth, h3, Nat.not_lt.1 h2]

/-- The operation id of an address word is the operation id. -/
theorem opField_addrWord {addr : Word} (op : BitVec 2) (h : alignedAddr addr = true) :
    opField (addr ||| op.zeroExtend 32) = op := by
  apply BitVec.eq_of_getLsbD_eq
  intro i hi
  rw [opField, BitVec.getLsbD_extractLsb', Nat.zero_add, BitVec.getLsbD_or, getLsbD_of_aligned h hi]
  simp [BitVec.getLsbD_setWidth, hi, show i < 32 by omega]

/-- An address word is its address field and its operation id. -/
theorem addrWord_fields (word : Word) : maskAddr word ||| (opField word).zeroExtend 32 = word := by
  apply BitVec.eq_of_getLsbD_eq
  intro i hi
  have hm := maskBit ⟨i, hi⟩
  simp only at hm
  rw [BitVec.getLsbD_or, maskAddr, BitVec.getLsbD_and, hm]
  by_cases h2 : i < 2
  · simp [opField, BitVec.getLsbD_setWidth, h2, Nat.not_le.2 h2, hi]
  · simp [opField, BitVec.getLsbD_setWidth, h2, Nat.not_lt.1 h2]

theorem alignedAddr_maskAddr (word : Word) : alignedAddr (maskAddr word) = true := by
  simp [alignedAddr, maskAddr, BitVec.and_assoc]

theorem le32_append_right (x y : List Byte) (n i : Nat) (h : n = x.length + i) : le32 (x ++ y) n = le32 y i := by
  rw [le32, le16_append_right x y (n + 2) (i + 2) (by omega), le16_append_right x y n i h, ← le32]

/-! ## Bodies, four and two bytes at a time -/

/-- The operation id is the low two bits of the first byte (R88). -/
theorem opField_eq_mod (b : List Byte) : (opField (le32 b 0)).toNat = (b.getD 0 0).toNat % 4 := by
  have : opField (le32 b 0) = (b.getD 0 0).truncate 2 := by
    have h := le32_byte b 0 (by omega)
    rw [← h]
    apply BitVec.eq_of_getLsbD_eq
    intro i hi
    simp [opField, BitVec.getLsbD_setWidth, hi, show i < 8 by omega]
  rw [this]; simp

/-- The first four bytes are those of the word they hold. -/
theorem bytes_le32 (b : List Byte) (h : 4 ≤ b.length) : b = bytesLe (le32 b 0) 4 ++ b.drop 4 := by
  match b, h with
  | x :: y :: z :: w :: r, _ =>
    have h0 := le32_byte (x :: y :: z :: w :: r) 0 (by omega)
    have h1 := le32_byte (x :: y :: z :: w :: r) 1 (by omega)
    have h2 := le32_byte (x :: y :: z :: w :: r) 2 (by omega)
    have h3 := le32_byte (x :: y :: z :: w :: r) 3 (by omega)
    rw [bytesLe_four]
    simp only [Nat.mul_zero, Nat.mul_one, Nat.reduceMul] at h0 h1 h2 h3
    rw [h0, h1, h2, h3]; rfl

theorem drop_two (b : List Byte) (n : Nat) (h : n + 2 ≤ b.length) :
    b.drop n = bytesLe (le16 b n) 2 ++ b.drop (n + 2) := by
  have := bytes_le16 (b.drop n) (by simp; omega)
  rw [le16_drop, List.drop_drop] at this
  exact this

theorem drop_four (b : List Byte) (n : Nat) (h : n + 4 ≤ b.length) :
    b.drop n = bytesLe (le32 b n) 4 ++ b.drop (n + 4) := by
  have := bytes_le32 (b.drop n) (by simp; omega)
  rw [List.drop_drop] at this
  rw [le32, le16_drop, le16_drop] at this
  exact this

theorem drop_one (b : List Byte) (n : Nat) (h : b.length = n + 1) : b.drop n = [b.getD n 0] := by
  rw [List.drop_eq_getElem_cons (by omega), List.drop_of_length_le (by omega)]
  simp [h]

end Sys2Proof
end

