-- ==== Sys2Proof/Laws/Fetch.lean ====
section
/-! SUPPORT. What the fetch finds, and the bytes placed where it looks. -/

namespace Sys2Proof.Machine

/-- Bytes put into the receive buffer are what is read from there. -/
theorem rxBytes_placeRx (s : State) (lo : Nat) (bytes : List Byte) :
    (s.placeRx lo bytes).rxBytes lo (lo + bytes.length) = bytes := by
  apply List.ext_getElem
  · simp
  · intro k h1 h2
    have h := Memory.get?_store_inside s.rxbuf lo bytes k h2
    simp [State.rxBytes, State.rxByte, State.placeRx, h]

theorem fetch_rest_nil (s : State) (h : s.phase = .rest) (hi : s.inputs = []) : s.fetch = .quiet := by
  simp [State.fetch, h, hi]

theorem fetch_rest_cons (s : State) (i : Input) (later : List Input) (h : s.phase = .rest)
    (hi : s.inputs = i :: later) : s.fetch = .agent i later := by
  simp [State.fetch, h, hi]

theorem fetch_parse (s : State) (wp : Nat) (h : s.phase = .parse wp) :
    s.fetch = .ofDecoded (decode .link (s.rxBytes s.cur wp)) := by
  simp [State.fetch, h]

theorem fetch_tail (s : State) (wp : Nat) (h : s.phase = .tail wp) :
    s.fetch = .ofDecoded (decode .tail (s.tailBytes wp)) := by
  simp [State.fetch, h]

theorem fetch_ra (s : State) (body : List Byte) (ctx : FrameCtx) (h : s.phase = .handler .ra body ctx) :
    s.fetch = .instr (decodeBody body) := by
  simp [State.fetch, h, decode, Fetched.ofDecoded]

theorem fetch_ext (s : State) (id : Fin 15) (body : List Byte) (ctx : FrameCtx)
    (h : s.phase = .handler (.ext id) body ctx) : s.fetch = .call (.ext id) body ctx := by
  simp [State.fetch, h]

theorem fetch_uplink_cons (s : State) (r : TxRequest) (later : List TxRequest) (ret : Bool) (ctx : FrameCtx)
    (h : s.phase = .uplink (r :: later) ret ctx) : s.fetch = .instr (.reply r.size r.data) := by
  simp [State.fetch, h]

theorem fetch_uplink_nil (s : State) (ctx : FrameCtx) (h : s.phase = .uplink [] true ctx) :
    s.fetch = .returned ctx := by
  simp [State.fetch, h]

theorem fetch_uplink_hangs (s : State) (ctx : FrameCtx) (h : s.phase = .uplink [] false ctx) : s.fetch = .hangs := by
  simp [State.fetch, h]

theorem fetch_returned (s : State) (ctx : FrameCtx) (h : s.phase = .returned ctx) : s.fetch = .returned ctx := by
  simp [State.fetch, h]

theorem fetch_ackDue (s : State) (h : s.phase = .ackDue) : s.fetch = .instr .ack := by
  simp [State.fetch, h]

/-- The doubled marker at the tail, byte by byte (R103). -/
theorem tailBytes_eq_iff (s : State) (wp : Nat) :
    s.tailBytes wp = Config.sync4Bytes ↔
      4 ≤ wp ∧ s.rxByte (wp - 4) = 0x55 ∧ s.rxByte (wp - 3) = 0xAA ∧ s.rxByte (wp - 2) = 0x55 ∧
        s.rxByte (wp - 1) = 0xAA := by
  unfold State.tailBytes
  by_cases h : wp < 4
  · simp [h, Config.sync4Bytes, Nat.not_le.2 h]
  · simp only [h, if_false, State.rxBytes, show wp - (wp - 4) = 4 by omega]
    simp [List.range_succ, Config.sync4Bytes, show wp - 4 + 1 = wp - 3 by omega, show wp - 4 + 2 = wp - 2 by omega,
      show wp - 4 + 3 = wp - 1 by omega, Nat.not_lt.1 h]

/-! ## What a decoder can answer -/

theorem decodeTail_cases (b : List Byte) :
    (b = Config.sync4Bytes ∧ decodeTail b = .instr .sync4 []) ∨ (b ≠ Config.sync4Bytes ∧ decodeTail b = .noMarker) := by
  unfold decodeTail
  split <;> simp_all

/-- The link decoder answers a shortfall, a marker, an illegal size or a frame with a legal size. -/
theorem decodeLink_cases (b : List Byte) :
    (b.length < 2 ∧ decodeLink b = .needMore (2 - b.length)) ∨
    (2 ≤ b.length ∧ le16 b 0 = Config.syncMarker ∧ decodeLink b = .instr .sync (b.drop 2)) ∨
    (2 ≤ b.length ∧ (le16 b 0).toNat < 2 ∧ decodeLink b = .instr (.illegalSize (le16 b 0)) (b.drop 2)) ∨
    (2 ≤ b.length ∧ legalSize (le16 b 0).toNat = true ∧ b.length < (le16 b 0).toNat + 4 ∧
      decodeLink b = .needMore ((le16 b 0).toNat + 4 - b.length)) ∨
    (legalSize (le16 b 0).toNat = true ∧ (le16 b 0).toNat + 4 ≤ b.length ∧
      decodeLink b = .instr (.frame ((b.drop 2).take (le16 b 0).toNat) (le16 b (2 + (le16 b 0).toNat)))
        (b.drop ((le16 b 0).toNat + 4))) := by
  unfold decodeLink
  by_cases h1 : b.length < 2
  · simp [h1]
  by_cases h2 : le16 b 0 = Config.syncMarker
  · simp [h1, h2]
    omega
  by_cases h3 : (le16 b 0).toNat < 2
  · simp [h1, h2, h3, Config.sizeMin]
    omega
  have hlegal : legalSize (le16 b 0).toNat = true := by
    have := (le16 b 0).isLt
    have hne : (le16 b 0).toNat ≠ Config.syncMarker.toNat := fun h => h2 (BitVec.eq_of_toNat_eq h)
    simp only [legalSize, Config.sizeMin, Bool.and_eq_true, decide_eq_true_eq, bne_iff_ne]
    exact ⟨⟨decide_eq_true (by omega), by omega⟩, hne⟩
  by_cases h4 : b.length < (le16 b 0).toNat + 4
  · simp [h1, h2, h3, h4, hlegal, Config.sizeMin]
    omega
  · simp [h1, h2, h3, h4, hlegal, Config.sizeMin]
    omega

/-- A body is decoded to a micro-instruction. -/
theorem decodeBody_level (b : List Byte) : (decodeBody b).level = .body := by
  unfold decodeBody
  split
  · rfl
  · simp only
    split <;> rfl

end Sys2Proof.Machine
end

