-- ==== Sys2Proof/Laws/PerInstr.lean ====
section
/-! SUPPORT. Per instruction: the length of its encoding (30_encoding.md R71, R77, R78, R80, R82, R85, R88). -/

namespace Sys2Proof.Laws.WireLength

/-- The number of bytes the spec's format gives an instruction. -/
def wireLength : Instr → Nat
  | .frame payload _ => payload.length + 4
  | .sync => 2
  | .sync4 => 4
  | .illegalSize _ => 2
  | .ack => 6
  | .reply size _ => size.toNat + 4
  | .rd32 _ => 4
  | .rd8 _ => 4
  | .rd16 _ => 4
  | .setb _ _ => 5
  | .wr8 _ _ => 5
  | .clrb _ _ => 5
  | .wr16 _ _ => 6
  | .wr32 _ _ => 8
  | .or32 _ _ => 8
  | .and32 _ _ => 8
  | .mod32 _ _ _ => 12
  | .nop body => body.length

/-- A well-formed instruction is encoded in the bytes its format gives it. -/
def Statement (i : Instr) : Prop := i.wf = true → (encode i).length = wireLength i

@[simp] theorem addrWord_length (addr op : Word) : (addrWord addr op).length = 4 := by simp [addrWord]

theorem frame (payload : List Byte) (crc : Half) : Statement (.frame payload crc) := fun _ => by
  simp [encode, wireLength]

theorem sync : Statement .sync := fun _ => by simp [encode, wireLength]

theorem sync4 : Statement .sync4 := fun _ => rfl

theorem illegalSize (size : Half) : Statement (.illegalSize size) := fun _ => by simp [encode, wireLength]

theorem ack : Statement .ack := fun _ => by simp [encode, wireLength, Config.ackData]

theorem reply (size : Half) (data : List Byte) : Statement (.reply size data) := fun h => by
  have : data.length = size.toNat := by simpa [Instr.wf] using h
  simp [encode, wireLength, this]

theorem rd32 (addr : Word) : Statement (.rd32 addr) := fun _ => by simp [encode, wireLength]

theorem rd8 (addr : Word) : Statement (.rd8 addr) := fun _ => by simp [encode, wireLength]

theorem rd16 (addr : Word) : Statement (.rd16 addr) := fun _ => by simp [encode, wireLength]

theorem setb (addr : Word) (idx : Byte) : Statement (.setb addr idx) := fun _ => by simp [encode, wireLength]

theorem wr8 (addr : Word) (imm8 : Byte) : Statement (.wr8 addr imm8) := fun _ => by simp [encode, wireLength]

theorem clrb (addr : Word) (idx : Byte) : Statement (.clrb addr idx) := fun _ => by simp [encode, wireLength]

theorem wr16 (addr : Word) (imm16 : Half) : Statement (.wr16 addr imm16) := fun _ => by simp [encode, wireLength]

theorem wr32 (addr imm32 : Word) : Statement (.wr32 addr imm32) := fun _ => by simp [encode, wireLength]

theorem or32 (addr imm32 : Word) : Statement (.or32 addr imm32) := fun _ => by simp [encode, wireLength]

theorem and32 (addr imm32 : Word) : Statement (.and32 addr imm32) := fun _ => by simp [encode, wireLength]

theorem mod32 (addr mask value : Word) : Statement (.mod32 addr mask value) := fun _ => by
  simp [encode, wireLength]

theorem nop (body : List Byte) : Statement (.nop body) := fun _ => rfl

end Sys2Proof.Laws.WireLength
end

