-- ==== Sys2Proof/Laws/Step.lean ====
section
/-! SUPPORT. What an instruction and what a step can do, said once. -/

namespace Sys2Proof.Machine

/-- What the meaning of a micro-instruction can do: nothing, a read and its reply, a write, or a read-modify-write,
at a masked address. -/
inductive MicroEffect (s : State) : State → Prop
  | none : MicroEffect s s
  | read (a : Word) (w : Width) : MicroEffect s (readAndReply s (target a) w)
  | write (a : Word) (w : Width) (v : Word) : MicroEffect s (memWrite s (target a) w v)
  | modify (a : Word) (f : Word → Word) : MicroEffect s (readModifyWrite s (target a) f)

/-- What the meaning of a link item can do. -/
inductive LinkEffect (s : State) : State → Prop
  | marker : LinkEffect s (handshake s).syncOutcome
  | error : LinkEffect s s.transportError
  | skip (payload : List Byte) (c : FormatCause) : LinkEffect s (s.formatError (payload.length + 4) c)
  | invoke (h : HandlerId) (body payload : List Byte) : LinkEffect s (s.invoke h body (payload.length + 4))

theorem exec_micro {i : Instr} {s t : State} (hl : i.level = .body) (h : exec i s = .next t) : MicroEffect s t := by
  cases i <;> simp only [Instr.level, reduceCtorEq] at hl <;>
    simp only [exec, execRd32, execRd8, execRd16, execSetb, execWr8, execClrb, execWr16, execWr32, execOr32,
      execAnd32, execMod32, execNop, Host.Outcome.next.injEq] at h
  case setb addr idx =>
    split at h <;> cases h
    · exact .modify addr _
    · exact .none
  case clrb addr idx =>
    split at h <;> cases h
    · exact .modify addr _
    · exact .none
  all_goals subst h
  case rd32 addr => exact .read addr _
  case rd8 addr => exact .read addr _
  case rd16 addr => exact .read addr _
  case wr8 addr _ => exact .write addr _ _
  case wr16 addr _ => exact .write addr _ _
  case wr32 addr _ => exact .write addr _ _
  case or32 addr _ => exact .modify addr _
  case and32 addr _ => exact .modify addr _
  case mod32 addr _ _ => exact .modify addr _
  case nop => exact .none

/-- What `FRAME` can do. -/
theorem execFrame_cases (payload : List Byte) (crc : Half) (s : State) :
    (Config.crc16 payload ≠ crc ∧ execFrame payload crc s = .next s.transportError) ∨
    (∃ c, Config.crc16 payload = crc ∧ execFrame payload crc s = .next (s.formatError (payload.length + 4) c)) ∨
    (∃ h body, Config.crc16 payload = crc ∧
      execFrame payload crc s = .next (s.invoke h body (payload.length + 4))) := by
  unfold execFrame
  by_cases hc : Config.crc16 payload = crc
  · simp only [hc, ne_eq, not_true_eq_false, ↓reduceIte, true_and]
    right
    split
    · exact .inl ⟨_, rfl⟩
    · split
      · exact .inl ⟨_, rfl⟩
      · split
        · exact .inl ⟨_, rfl⟩
        · exact .inr ⟨_, _, rfl⟩
  · simp [hc]

theorem exec_link {i : Instr} {s t : State} (hl : i.level = .link) (h : exec i s = .next t) : LinkEffect s t := by
  cases i <;> simp only [Instr.level, reduceCtorEq] at hl
  case frame payload crc =>
    simp only [exec] at h
    rcases execFrame_cases payload crc s with ⟨_, h'⟩ | ⟨c, _, h'⟩ | ⟨hd, body, _, h'⟩ <;> rw [h'] at h <;> cases h
    · exact .error
    · exact .skip payload c
    · exact .invoke hd body payload
  case sync => cases h; exact .marker
  case illegalSize => cases h; exact .error

/-- The moves of the machine: what a step that answers a next state can have done, by what was fetched. -/
inductive Move (s : State) : State → Prop
  /-- The instruction at the fetch point has run. -/
  | instr (i : Instr) (u : State) (hf : s.fetch = .instr i) (hx : exec i s = .next u) : Move s (State.retire s.phase u)
  | needMore (n : Nat) (hf : s.fetch = .needMore n) : Move s (s.needMoreBytes n)
  | noMarker (hf : s.fetch = .noMarker) : Move s s.endEvent
  | call (h : HandlerId) (body : List Byte) (ctx : FrameCtx) (hf : s.fetch = .call h body ctx) :
      Move s (s.callExternal h body ctx)
  | returned (ctx : FrameCtx) (hf : s.fetch = .returned ctx) : Move s (s.parserReturn ctx)
  | agent (input : Input) (later : List Input) (hf : s.fetch = .agent input later) :
      Move s (({ s with inputs := later } : State).agentStep input)
  | quiet (hf : s.fetch = .quiet) : Move s s

theorem onNext_eq_next {f : State → State} {o : Host.Outcome State Fault Refusal} {t : State}
    (h : onNext f o = .next t) : ∃ u, o = .next u ∧ t = f u := by
  cases o <;> simp_all [onNext]

/-- Every step that answers a next state is one of the moves. -/
theorem step_move {s t : State} (h : step s = .next t) : Move s t := by
  unfold step at h
  split at h
  case h_1 i hf =>
    obtain ⟨u, hx, rfl⟩ := onNext_eq_next h
    exact .instr i u hf hx
  case h_2 n hf => cases h; exact .needMore n hf
  case h_3 hf => cases h; exact .noMarker hf
  case h_4 hd body ctx hf => cases h; exact .call hd body ctx hf
  case h_5 ctx hf => cases h; exact .returned ctx hf
  case h_6 hf => cases h
  case h_7 input later hf => cases h; exact .agent input later hf
  case h_8 hf => cases h; exact .quiet hf

/-- Between event steps, the next act of another agent. -/
theorem step_agent {s : State} {i : Input} {later : List Input} (h : s.phase = .rest) (hi : s.inputs = i :: later) :
    step s = .next (({ s with inputs := later } : State).agentStep i) := by
  simp [step, fetch_rest_cons s i later h hi]

/-- The same move, forwards: a step on a fetched instruction. -/
theorem step_instr {s : State} {i : Instr} (hf : s.fetch = .instr i) :
    step s = onNext (State.retire s.phase) (exec i s) := by
  simp [step, hf]

/-! ## The step, point by point -/

/-- What a step that answers a next state has done, by the point the engine stood at. -/
inductive StepCase (s : State) : State → Prop
  /-- A link item has run. -/
  | link (wp : Nat) (i : Instr) (rest : List Byte) (u : State) (hp : s.phase = .parse wp)
      (hd : decodeLink (s.rxBytes s.cur wp) = .instr i rest) (hx : exec i s = .next u) (he : LinkEffect s u) :
      StepCase s u
  /-- A link item is not all there. -/
  | needMore (wp n : Nat) (hp : s.phase = .parse wp) (hd : decodeLink (s.rxBytes s.cur wp) = .needMore n) :
      StepCase s (s.needMoreBytes n)
  /-- The doubled marker stands at the tail. -/
  | tailMarker (wp : Nat) (hp : s.phase = .tail wp) (hb : s.tailBytes wp = Config.sync4Bytes) :
      StepCase s (handshake s).endEvent
  /-- It does not. -/
  | noMarker (wp : Nat) (hp : s.phase = .tail wp) (hb : s.tailBytes wp ≠ Config.sync4Bytes) : StepCase s s.endEvent
  /-- A micro-instruction has run. -/
  | micro (body : List Byte) (ctx : FrameCtx) (u : State) (hp : s.phase = .handler .ra body ctx)
      (hx : exec (decodeBody body) s = .next u) (he : MicroEffect s u) : StepCase s { u with phase := .returned ctx }
  /-- An external handler has been called. -/
  | call (id : Fin 15) (body : List Byte) (ctx : FrameCtx) (hp : s.phase = .handler (.ext id) body ctx) :
      StepCase s (s.callExternal (.ext id) body ctx)
  /-- One of its transmissions has been made. -/
  | uplink (r : TxRequest) (later : List TxRequest) (ret : Bool) (ctx : FrameCtx)
      (hp : s.phase = .uplink (r :: later) ret ctx) :
      StepCase s { transmit s r.size r.data with phase := .uplink later ret ctx }
  /-- The handler has returned. -/
  | returned (ctx : FrameCtx) (hp : s.phase = .returned ctx ∨ s.phase = .uplink [] true ctx) :
      StepCase s (s.parserReturn ctx)
  /-- The acknowledgement that was due has been sent. -/
  | ack (hp : s.phase = .ackDue) : StepCase s (handshake s).endEvent
  /-- Another agent has acted. -/
  | agent (input : Input) (later : List Input) (hp : s.phase = .rest) (hi : s.inputs = input :: later) :
      StepCase s (({ s with inputs := later } : State).agentStep input)
  /-- No agent acts. -/
  | quiet (hp : s.phase = .rest) (hi : s.inputs = []) : StepCase s s

/-- The one lemma about a step: it is one of these cases. -/
theorem step_cases {s t : State} (h : step s = .next t) : StepCase s t := by
  match hp : s.phase with
  | .rest =>
    match hi : s.inputs with
    | [] =>
      rw [step, fetch_rest_nil s hp hi] at h
      cases h
      exact .quiet hp hi
    | input :: later =>
      rw [step_agent hp hi] at h
      cases h
      exact .agent input later hp hi
  | .parse wp =>
    have hf := fetch_parse s wp hp
    rw [show decode .link (s.rxBytes s.cur wp) = decodeLink (s.rxBytes s.cur wp) from rfl] at hf
    have hlink : ∀ i rest, decodeLink (s.rxBytes s.cur wp) = .instr i rest → i.level = .link → StepCase s t := by
      intro i rest hd hl
      rw [hd] at hf
      rw [step_instr hf] at h
      obtain ⟨u, hx, rfl⟩ := onNext_eq_next h
      rw [hp]
      exact .link wp i rest u hp hd hx (exec_link hl hx)
    have hneed : ∀ n, decodeLink (s.rxBytes s.cur wp) = .needMore n → StepCase s t := by
      intro n hd
      rw [hd] at hf
      rw [step, hf] at h
      cases h
      exact .needMore wp n hp hd
    rcases decodeLink_cases (s.rxBytes s.cur wp) with ⟨_, hd⟩ | ⟨_, _, hd⟩ | ⟨_, _, hd⟩ | ⟨_, _, _, hd⟩ | ⟨_, _, hd⟩
    · exact hneed _ hd
    · exact hlink _ _ hd rfl
    · exact hlink _ _ hd rfl
    · exact hneed _ hd
    · exact hlink _ _ hd rfl
  | .tail wp =>
    have hf := fetch_tail s wp hp
    rw [show decode .tail (s.tailBytes wp) = decodeTail (s.tailBytes wp) from rfl] at hf
    rcases decodeTail_cases (s.tailBytes wp) with ⟨hb, hd⟩ | ⟨hb, hd⟩
    · rw [hd] at hf
      rw [step_instr hf, hp] at h
      cases h
      exact .tailMarker wp hp hb
    · rw [hd] at hf
      rw [step, hf] at h
      cases h
      exact .noMarker wp hp hb
  | .handler .ra body ctx =>
    rw [step_instr (fetch_ra s body ctx hp)] at h
    obtain ⟨u, hx, rfl⟩ := onNext_eq_next h
    rw [hp]
    exact .micro body ctx u hp hx (exec_micro (decodeBody_level body) hx)
  | .handler (.ext id) body ctx =>
    rw [step, fetch_ext s id body ctx hp] at h
    cases h
    exact .call id body ctx hp
  | .uplink (r :: later) ret ctx =>
    rw [step_instr (fetch_uplink_cons s r later ret ctx hp), hp] at h
    cases h
    exact .uplink r later ret ctx hp
  | .uplink [] true ctx =>
    rw [step, fetch_uplink_nil s ctx hp] at h
    cases h
    exact .returned ctx (.inr hp)
  | .uplink [] false ctx =>
    rw [step, fetch_uplink_hangs s ctx hp] at h
    cases h
  | .returned ctx =>
    rw [step, fetch_returned s ctx hp] at h
    cases h
    exact .returned ctx (.inl hp)
  | .ackDue =>
    rw [step_instr (fetch_ackDue s hp), hp] at h
    cases h
    exact .ack hp

end Sys2Proof.Machine
end

