-- ==== Sys2Proof/Laws/Run.lean ====
section
/-! SUPPORT. Runs of several steps. -/

namespace Sys2Proof.Machine

theorem steps_zero (s : State) : Steps 0 s s := rfl

/-- One step, then the rest of the run. -/
theorem Steps.cons {k : Nat} {s u t : State} (h : step s = .next u) (hk : Steps k u t) : Steps (k + 1) s t := by
  unfold Steps at hk ⊢
  simp only [Host.Core.run, core] at hk ⊢
  rw [h]
  exact hk

theorem steps_one {s t : State} (h : step s = .next t) : Steps 1 s t := Steps.cons h (steps_zero t)

/-- One run after another. -/
theorem Steps.trans {j k : Nat} {s u t : State} (h : Steps j s u) (hk : Steps k u t) : Steps (j + k) s t := by
  induction j generalizing s with
  | zero =>
    cases h
    rwa [Nat.zero_add]
  | succ j ih =>
    simp only [Steps, Host.Core.run, core] at h
    cases hs : step s with
    | next v =>
      rw [hs] at h
      rw [Nat.add_right_comm]
      exact Steps.cons hs (ih h)
    | fault r => rw [hs] at h; cases h
    | refused r => rw [hs] at h; cases h

end Sys2Proof.Machine
end

