-- ==== Sys2Proof/Tests/Slice0.lean ====
section
/-! SUPPORT. The model's own tests. Words and expected results are those of the spec's worked encodings and vectors
(30_encoding.md R93, 95_test_vectors.md), named in the docstrings. Then, for every statement with hypotheses, a
witness that meets them. -/

namespace Sys2Proof.Tests

open Sys2Proof.Machine

/-! ## WellFormed: what each check refuses (30_encoding.md R72, R83, R88, R89) -/

theorem test_wf_frame_size_0 : (Instr.frame [] 0).wf = false := by decide

theorem test_wf_frame_size_1 : (Instr.frame [0x3A] 0).wf = false := by decide

theorem test_wf_frame_size_2 : (Instr.frame [0x61, 0x3A] 0).wf = true := by decide

theorem test_wf_size_marker : legalSize 0xAA55 = false ∧ legalSize 0x10000 = false ∧ legalSize 0xFFFF = true := by
  decide

theorem test_wf_illegalSize_2 : (Instr.illegalSize 2).wf = false ∧ (Instr.illegalSize 1).wf = true := by decide

theorem test_wf_reply_length : (Instr.reply 2 [0x78]).wf = false ∧ (Instr.reply 1 [0x78]).wf = true := by decide

theorem test_wf_rd32_misaligned : (Instr.rd32 0x1001).wf = false := by decide

theorem test_wf_rd8_misaligned : (Instr.rd8 0x1002).wf = false := by decide

theorem test_wf_rd16_misaligned : (Instr.rd16 0x1003).wf = false := by decide

theorem test_wf_bits_misaligned : (Instr.setb 0x1001 0).wf = false ∧ (Instr.clrb 0x1002 0).wf = false := by decide

theorem test_wf_writes_misaligned :
    (Instr.wr8 0x1001 0).wf = false ∧ (Instr.wr16 0x1001 0).wf = false ∧ (Instr.wr32 0x1001 0).wf = false := by decide

theorem test_wf_modify_misaligned :
    (Instr.or32 0x1001 0).wf = false ∧ (Instr.and32 0x1002 0).wf = false ∧ (Instr.mod32 0x1003 0 0).wf = false := by
  decide

/-- A body of a defined pair is no `NOP`. -/
theorem test_wf_nop_defined : (Instr.nop [0x00, 0x10, 0x00, 0x00]).wf = false := by decide

theorem test_wf_nop_op3 : (Instr.nop [0x03, 0x10, 0x00, 0x00]).wf = true ∧ (Instr.nop []).wf = true := by decide

/-! ## Decoding: words written out from the spec -/

/-- V44: `RA(WR32 0x1000, 0xDEADBEEF)` on the wire, and the CRC bytes there are those of the reference instance. -/
theorem test_decode_frame :
    decode .link [0x0A, 0x00, 0x5F, 0x3A, 0x00, 0x10, 0x00, 0x00, 0xEF, 0xBE, 0xAD, 0xDE, 0x8E, 0x89, 0x55] =
      .instr (.frame [0x5F, 0x3A, 0x00, 0x10, 0x00, 0x00, 0xEF, 0xBE, 0xAD, 0xDE] 0x898E) [0x55] := by decide

/-- V14: five bytes are missing. -/
theorem test_decode_incomplete : decode .link [0x06, 0x00, 0x5F, 0x3A, 0x00] = .needMore 5 := by decide

/-- V12: after a split marker the size is read as 0x06AA. -/
theorem test_decode_misaligned :
    decode .link [0xAA, 0x06, 0x00, 0x5F, 0x3A, 0x00, 0x10, 0x00, 0x00, 0xA4, 0xB2] = .needMore 1699 := by decide

/-- V10. -/
theorem test_decode_sync : decode .link [0x55, 0xAA, 0x55, 0xAA] = .instr .sync [0x55, 0xAA] := by decide

/-- V13. -/
theorem test_decode_illegalSize : decode .link [0x00, 0x00] = .instr (.illegalSize 0) [] := by decide

/-- V8: the doubled marker must be all four bytes. -/
theorem test_decode_tail : decode .tail [0x55, 0xAA, 0x55, 0xAB] = .noMarker := by decide

/-- V60: the acknowledgement. -/
theorem test_decode_ack : decode .uplink [0x02, 0x00, 0x4F, 0x4B, 0x52, 0xF9] = .instr .ack [] := by decide

/-- V57. -/
theorem test_decode_reply :
    decode .uplink [0x04, 0x00, 0x78, 0x56, 0x34, 0x12, 0x3A, 0x54] =
      .instr (.reply 4 [0x78, 0x56, 0x34, 0x12]) [] := by decide

/-- V30. -/
theorem test_decode_rd32 : decode .body [0x00, 0x10, 0x00, 0x00] = .instr (.rd32 0x1000) [] := by decide

/-- V31; R166: address word 0x1001. -/
theorem test_decode_rd8 : decode .body [0x01, 0x10, 0x00, 0x00] = .instr (.rd8 0x1000) [] := by decide

/-- V32. -/
theorem test_decode_rd16 : decode .body [0x02, 0x10, 0x00, 0x00] = .instr (.rd16 0x1000) [] := by decide

/-- V38. -/
theorem test_decode_setb : decode .body [0x00, 0x10, 0x00, 0x00, 0xFF] = .instr (.setb 0x1000 0xFF) [] := by decide

/-- V39. -/
theorem test_decode_wr8 : decode .body [0x01, 0x10, 0x00, 0x00, 0xAB] = .instr (.wr8 0x1000 0xAB) [] := by decide

/-- V42. -/
theorem test_decode_clrb : decode .body [0x02, 0x10, 0x00, 0x00, 0x1F] = .instr (.clrb 0x1000 0x1F) [] := by decide

/-- V43. -/
theorem test_decode_wr16 :
    decode .body [0x00, 0x10, 0x00, 0x00, 0xEF, 0xBE] = .instr (.wr16 0x1000 0xBEEF) [] := by decide

/-- V45. -/
theorem test_decode_wr32 :
    decode .body [0xFC, 0xFF, 0xFF, 0xFF, 0x04, 0x03, 0x02, 0x01] = .instr (.wr32 0xFFFFFFFC 0x01020304) [] := by
  decide

/-- V46. -/
theorem test_decode_or32 :
    decode .body [0x01, 0x10, 0x00, 0x00, 0x00, 0xFF, 0x00, 0x00] = .instr (.or32 0x1000 0x0000FF00) [] := by decide

/-- V47. -/
theorem test_decode_and32 :
    decode .body [0x02, 0x10, 0x00, 0x00, 0xFF, 0x00, 0xFF, 0xFF] = .instr (.and32 0x1000 0xFFFF00FF) [] := by decide

/-- V49: mask first, value second. -/
theorem test_decode_mod32 :
    decode .body [0x00, 0x10, 0x00, 0x00, 0xF0, 0x00, 0x00, 0x00, 0x0F, 0x01, 0x00, 0x00] =
      .instr (.mod32 0x1000 0xF0 0x10F) [] := by decide

/-- V52, V53, V55: `(6, 1)`, length 7, length 3. -/
theorem test_decode_nop :
    decode .body [0x01, 0x10, 0x00, 0x00, 0xEF, 0xBE] = .instr (.nop [0x01, 0x10, 0x00, 0x00, 0xEF, 0xBE]) [] ∧
    decode .body [0x00, 0x10, 0x00, 0x00, 0x01, 0x02, 0x03] =
      .instr (.nop [0x00, 0x10, 0x00, 0x00, 0x01, 0x02, 0x03]) [] ∧
    decode .body [0x00, 0x10, 0x00] = .instr (.nop [0x00, 0x10, 0x00]) [] := by decide

/-- The words of the opcode table, at the widths it gives. -/
theorem test_table_words :
    decodeTableWord 16 0xAA55 = some .sync ∧ decodeTableWord 32 0xAA55AA55 = some .sync4 ∧
    decodeTableWord 16 1 = some (.illegalSize 1) ∧ decodeTableWord 32 0x4B4F0002 = some .ack ∧
    decodeTableWord 32 0 = some (.rd32 0) ∧ decodeTableWord 32 1 = some (.rd8 0) ∧
    decodeTableWord 32 2 = some (.rd16 0) ∧ decodeTableWord 16 2 = some (.frame [0, 0] 0) := by decide

/-- The operand words of a longer body count on from bit 32. -/
theorem test_table_words_long :
    decodeTableWord 40 0x0500001000 = some (.setb 0x1000 5) ∧
    decodeTableWord 48 0xBEEF00001000 = some (.wr16 0x1000 0xBEEF) ∧
    decodeTableWord 64 0x0000FF0000001001 = some (.or32 0x1000 0xFF00) ∧
    decodeTableWord 96 0x000000050000000F00001000 = some (.mod32 0x1000 0x0F 0x05) := by decide

/-! ## The reference CRC (R8, 95_test_vectors.md) -/

theorem test_crc_check_value :
    Config.crc16Ref [0x31, 0x32, 0x33, 0x34, 0x35, 0x36, 0x37, 0x38, 0x39] = 0x29B1 := by decide +kernel

theorem test_crc_empty : Config.crc16Ref [] = 0xFFFF := by decide

theorem test_crc_ok : Config.crc16Ref [0x4F, 0x4B] = 0xF952 := by decide +kernel

/-- The CRC field of V44 is that of its payload under the reference instance. -/
theorem test_crc_frame :
    Config.crc16Ref [0x5F, 0x3A, 0x00, 0x10, 0x00, 0x00, 0xEF, 0xBE, 0xAD, 0xDE] = 0x898E := by decide +kernel

/-! ## Helpers -/

/-- Something of the next state. -/
def got {α : Type} (o : Host.Outcome State Fault Refusal) (f : State → α) : Option α :=
  match o with
  | .next s => some (f s)
  | _ => none

/-- The state after the boot sequence (R202), with these bytes received. -/
def live (bytes : List Byte) : State :=
  { State.reset with
    rxa := true, reg := [⟨Config.raKey, .ra⟩], rxbuf := Memory.store [] 0 bytes, wp := bytes.length }

/-- `MEM32[0x1000]` holds a word. -/
def withWord (v : Word) : State := { live [] with mem := Memory.store [] 0x1000 (bytesLe v 4) }

/-- `MEM32[0x1000]` and the accesses made. -/
def wordAndLog (s : State) : Word × List Access := (s.memWord 0x1000, s.memLog)

/-- The state in the parse loop, with these bytes from the cursor on. -/
def parsing (bytes : List Byte) : State := { live bytes with phase := .parse bytes.length }

/-! ## Meanings: results of 95_test_vectors.md -/

/-- V30, V34: the value goes out least significant byte first. -/
theorem test_rd32 :
    got (exec (.rd32 0x1000) (withWord 0x12345678)) (fun t => (t.tx.take 6, t.tx.length, t.txf)) =
      some ([0x04, 0x00, 0x78, 0x56, 0x34, 0x12], 8, true) := by decide

/-- V30: one 4-byte read. -/
theorem test_rd32_log :
    got (exec (.rd32 0x1000) (withWord 0x12345678)) wordAndLog =
      some (0x12345678, [⟨.read, 0x1000, .word, 0x12345678⟩]) := by decide

/-- V31. -/
theorem test_rd8 :
    got (exec (.rd8 0x1000) (withWord 0x12345678)) (fun t => (t.tx.take 3, t.tx.length, t.memLog)) =
      some ([0x01, 0x00, 0x78], 5, [⟨.read, 0x1000, .byte, 0x78⟩]) := by decide

/-- V32. -/
theorem test_rd16 :
    got (exec (.rd16 0x1000) (withWord 0x12345678)) (fun t => (t.tx.take 4, t.tx.length, t.memLog)) =
      some ([0x02, 0x00, 0x78, 0x56], 6, [⟨.read, 0x1000, .half, 0x5678⟩]) := by decide

/-- R53: the target may answer otherwise than with what was stored. -/
theorem test_rd16_answer :
    got (exec (.rd16 0x1000) { withWord 0x12345678 with reads := [some 0xCAFEF00D, none] })
      (fun t => (t.tx.take 4, t.reads)) = some ([0x02, 0x00, 0x0D, 0xF0], [none]) := by decide

/-- V36. -/
theorem test_setb_31 :
    got (exec (.setb 0x1000 31) (withWord 0)) wordAndLog =
      some (0x80000000, [⟨.read, 0x1000, .word, 0⟩, ⟨.write, 0x1000, .word, 0x80000000⟩]) := by decide

/-- V37. -/
theorem test_setb_32 : got (exec (.setb 0x1000 32) (withWord 0x55)) wordAndLog = some (0x55, []) := by decide

/-- V39. -/
theorem test_wr8 :
    got (exec (.wr8 0x1000 0xAB) (withWord 0x12345678)) wordAndLog =
      some (0x123456AB, [⟨.write, 0x1000, .byte, 0xAB⟩]) := by decide

/-- V42. -/
theorem test_clrb_31 :
    got (exec (.clrb 0x1000 31) (withWord 0xFFFFFFFF)) wordAndLog =
      some (0x7FFFFFFF, [⟨.read, 0x1000, .word, 0xFFFFFFFF⟩, ⟨.write, 0x1000, .word, 0x7FFFFFFF⟩]) := by decide

/-- V43. -/
theorem test_wr16 :
    got (exec (.wr16 0x1000 0xBEEF) (withWord 0x12345678)) wordAndLog =
      some (0x1234BEEF, [⟨.write, 0x1000, .half, 0xBEEF⟩]) := by decide

/-- V44. -/
theorem test_wr32 :
    got (exec (.wr32 0x1000 0xDEADBEEF) (withWord 0)) wordAndLog =
      some (0xDEADBEEF, [⟨.write, 0x1000, .word, 0xDEADBEEF⟩]) := by decide

/-- V45: the last word of the address space. -/
theorem test_wr32_top :
    got (exec (.wr32 0xFFFFFFFC 0x01020304) (live [])) (fun t => (t.memWord 0xFFFFFFFC, t.mem.length)) =
      some (0x01020304, 4) := by decide

/-- V46. -/
theorem test_or32 :
    got (exec (.or32 0x1000 0xFF00) (withWord 0xEF)) wordAndLog =
      some (0xFFEF, [⟨.read, 0x1000, .word, 0xEF⟩, ⟨.write, 0x1000, .word, 0xFFEF⟩]) := by decide

/-- V47. -/
theorem test_and32 :
    got (exec (.and32 0x1000 0xFFFF00FF) (withWord 0xDEADBEEF)) wordAndLog =
      some (0xDEAD00EF, [⟨.read, 0x1000, .word, 0xDEADBEEF⟩, ⟨.write, 0x1000, .word, 0xDEAD00EF⟩]) := by decide

/-- V48. -/
theorem test_mod32 : got (exec (.mod32 0x1000 0x0F 0x05) (withWord 0xFF)) State.memLog =
    some [⟨.read, 0x1000, .word, 0xFF⟩, ⟨.write, 0x1000, .word, 0xF5⟩] := by decide

/-- V49: the value is not masked. -/
theorem test_mod32_outside :
    got (exec (.mod32 0x1000 0xF0 0x10F) (withWord 0xFFFFFFFF)) (State.memWord · 0x1000) = some 0xFFFFFF0F := by decide

/-- V54: key 35 does nothing. -/
theorem test_nop :
    got (exec (.nop [0x03, 0x10, 0x00, 0x00, 0x44, 0x33, 0x22, 0x11]) (withWord 0x12345678)) id =
      some (withWord 0x12345678) := by decide

/-- V9, V60. -/
theorem test_sync4 :
    got (exec .sync4 { live [0, 0, 0] with cur := 2, err := true, phase := .tail 3 })
      (fun t => ([t.cur, t.wp, t.tx.length], [t.err, t.txf], t.tx.take 4)) =
      some ([0, 0, 6], [false, false], [0x02, 0x00, 0x4F, 0x4B]) := by decide

/-- V10. -/
theorem test_sync :
    got (exec .sync (parsing [0x55, 0xAA])) (fun t => (t.wp, t.outcome, t.phase)) =
      some (0, some .sync, .rest) := by decide

/-- R174: a second acknowledgement is appended. -/
theorem test_ack : got (exec .ack { live [] with tx := [1] }) (fun t => (t.tx.length, t.tx.take 3)) =
    some (7, [1, 0x02, 0x00]) := by decide

/-- V58: size 0 is sent. -/
theorem test_reply_0 :
    got (exec (.reply 0 []) { live [] with idlePending := true }) (fun t => (t.tx.take 2, t.tx.length, t.idlePending)) =
      some ([0x00, 0x00], 4, false) := by decide

/-- V57: from `ERR = 1`; what lies behind `size` bytes is not sent. -/
theorem test_reply :
    got (exec (.reply 1 [0x78, 0x79]) { live [] with err := true }) (fun t => (t.tx.take 3, t.tx.length, t.err)) =
      some ([0x01, 0x00, 0x78], 5, false) := by decide

/-- V13. -/
theorem test_illegalSize :
    got (step (parsing [0x01, 0x00, 0x41])) (fun t => (t.cur, t.wp, t.err, t.outcome)) =
      some (0, 3, true, some .transportError) := by decide

/-- V16: payload `"nocolon"` is skipped. -/
theorem test_frame_noColon :
    exec (.frame [0x6E, 0x6F, 0x63, 0x6F, 0x6C, 0x6F, 0x6E]
      (Config.crc16 [0x6E, 0x6F, 0x63, 0x6F, 0x6C, 0x6F, 0x6E])) (parsing []) =
      .next { parsing [] with cur := 11, outcome := some (.formatError 11 .noColon) } := by
  simp [exec, execFrame, colonIndex, Config.sep, List.findIdx?_cons]
  rfl

/-- V22: payload `"_:"` goes to the Register-Access Handler with an empty body. -/
theorem test_frame_emptyBody :
    exec (.frame [0x5F, 0x3A] (Config.crc16 [0x5F, 0x3A])) (parsing []) =
      .next { parsing [] with phase := .handler .ra [] ⟨6, 0⟩ } := by
  simp [exec, execFrame, colonIndex, Config.sep, Config.keyMax, List.findIdx?_cons]
  rfl

/-- V29. -/
theorem test_lookup :
    lookupSlot [⟨[0x5F], .ra⟩, ⟨[0x68, 0x69], .ext 0⟩] [0x68, 0x69] = some 1 ∧
    lookupSlot [⟨[0x5F], .ra⟩, ⟨[0x68, 0x69], .ext 0⟩] [0x68] = none ∧
    lookupSlot [⟨[0x5F], .ra⟩, ⟨[0x68, 0x69], .ext 0⟩] [0x48, 0x49] = none ∧
    lookupSlot [⟨[0x5F], .ra⟩, ⟨[0x68, 0x69], .ext 0⟩] [] = none ∧
    lookupSlot [⟨[0x5F], .ra⟩, ⟨[0x68, 0x69], .ext 0⟩] [0x5F] = some 0 := by decide

/-- V2: before `start()` bytes are lost. -/
theorem test_stopped : step { State.reset with inputs := [.byte 0x55, .raiseIdle] } =
    .next { State.reset with inputs := [.raiseIdle] } := rfl

/-- V8: a doubled marker that is not at the tail. -/
theorem test_tail_not_at_end :
    got (step { live [0x55, 0xAA, 0x55, 0xAA, 0x00, 0x00] with err := true, phase := .tail 6 })
      (fun t => (t.err, t.wp, t.tx)) = some (true, 6, []) := by decide

/-- The word of a table row, placed after reset, is fetched and run. -/
theorem test_placed : got (step (State.reset.withFetchWord 40 0x0500001000)) (fun t => (t.phase, t.memLog.length)) =
    some (.returned ⟨11, 11⟩, 2) := by decide

/-! ## Witnesses: for each statement with hypotheses, operands and a state that meet them -/

/-- A handler that is to be run, or has run, inside the event step of a 6-byte frame. -/
def inFrame (p : FrameCtx → Phase) : State := { live [0, 0, 0, 0, 0, 0] with phase := p ⟨6, 6⟩ }

/-- Between event steps, with an act of another agent next. -/
def acting (i : Input) : State := { live [] with inputs := [i, .raiseIdle] }

theorem rxCap_pos : 0 < Config.rxCap := Nat.lt_of_lt_of_le (by decide) Config.rxCap_ge

/-- The invariant of a state with a short buffer and the boot sequence's registry. -/
theorem inv_of_short (s : State) (hm : s.mem = []) (hr : s.rxa = true) (hreg : s.reg = [⟨Config.raKey, .ra⟩])
    (hrx : s.rxbuf.wf = true) (hb : ∀ c ∈ s.rxbuf, c.1 < 6) (hc : s.cur ≤ s.wp) (hw : s.wp ≤ 6)
    (ht : s.tcPending = true ∨ s.wp < 6) (hp : s.PhaseOk) : s.Inv := by
  have h6 := Config.rxCap_ge
  refine ⟨by simp [hm, Memory.wf], by simp [hm], hrx, fun c h => lt_of_lt_of_le (hb c h) h6, by simp [hreg, Config.regSlots],
    by simp [hreg, Config.raKey, Config.keyMax], by omega, by omega, fun _ h => ?_, fun h => ?_, hp⟩
  · rcases ht with ht | ht
    · rw [ht] at h
      cases h
    · omega
  · rw [hr] at h
    cases h

theorem witness_DecodeOfEncodeIsTheInstruction :
    (∀ i ∈ [Instr.frame [0x61, 0x3A] 0, .illegalSize 1, .sync4, .ack, .reply 0 [], .mod32 0xFFFFFFFC 1 2, .nop []],
      i.wf = true) ∧
    encode (.reply 0 []) ≠ encode .ack ∧ (Instr.reply 2 Config.ackData).wf = true ∧
    encode (.reply 2 Config.ackData) = encode .ack := by
  refine ⟨by decide, fun h => ?_, by decide, rfl⟩
  have := congrArg List.length h
  simp [encode, Config.ackData] at this

theorem witness_EveryBodyIsAMicroInstruction : ([0x00, 0x10, 0x00] : List Byte).length ≤ maxBody := by decide

theorem witness_LinkItemIsTheBytesAtTheFront :
    decode .link [0x04, 0x00, 0x7A, 0x7A, 0x3A, 0x31, 0xFB, 0x7D, 0x55] =
      .instr (.frame [0x7A, 0x7A, 0x3A, 0x31] 0x7DFB) [0x55] := by decide

theorem witness_CutOffFrameReportsItsShortfall :
    (Instr.frame [0x61, 0x3A] 0).wf = true ∧ ∀ k ∈ [0, 1, 2, 5], k < ([0x61, 0x3A] : List Byte).length + 4 := by decide

theorem witness_WrongCrcLatches : Config.crc16 [] ≠ Config.crc16 [] ^^^ 1 := fun h => by
  have : (0 : Half) = 1 := by
    have := congrArg (Config.crc16 [] ^^^ ·) h
    simpa [← BitVec.xor_assoc] using this
  cases this

theorem witness_SingleBitFlipLatches : Config.DiffersInOneBit [0x7A, 0x31] [0x7A, 0xB1] :=
  ⟨[0x7A], [], 0x31, 7, rfl, rfl⟩

/-- V16, V17, V18. -/
theorem witness_MalformedFrameIsSkipped :
    (∀ b ∈ ([0x6E, 0x6F] : List Byte), b ≠ Config.sep) ∧
    (∀ b ∈ ([0x74, 0x6F, 0x6F, 0x6C, 0x6F, 0x6E, 0x67, 0x6B] : List Byte), b ≠ Config.sep) ∧
    ([0x74, 0x6F, 0x6F, 0x6C, 0x6F, 0x6E, 0x67, 0x6B] : List Byte).length > 7 ∧
    (∀ b ∈ ([0x37, 0x63, 0x68, 0x61, 0x72, 0x73, 0x6B] : List Byte), b ≠ Config.sep) ∧
    ([0x37, 0x63, 0x68, 0x61, 0x72, 0x73, 0x6B] : List Byte).length ≤ 7 ∧
    ∀ e ∈ (live []).reg, e.key ≠ [0x37, 0x63, 0x68, 0x61, 0x72, 0x73, 0x6B] := by decide

/-- The least index, among two entries with one key. -/
theorem witness_RegisteredKeyInvokesItsHandler :
    let s : State := { live [] with reg := [⟨[0x5F], .ra⟩, ⟨[], .ext 1⟩, ⟨[], .ext 2⟩] }
    s.reg[1]? = some ⟨[], .ext 1⟩ ∧ ∀ j, j < 1 → ∀ e', s.reg[j]? = some e' → e'.key ≠ [] := by
  refine ⟨rfl, fun j hj e' he => ?_⟩
  obtain rfl : j = 0 := by omega
  cases he
  decide

theorem witness_IllegalSizeLatches : (0 : Half).toNat < 2 ∧ (1 : Half).toNat < 2 := by decide

theorem witness_TransmissionTurnsConsumedIntoSync :
    (inFrame .returned).phase = .returned ⟨6, 6⟩ ∧ (inFrame .returned).txf = false ∧
    ({ inFrame .returned with txf := true } : State).phase = .returned ⟨6, 6⟩ := ⟨rfl, rfl, rfl⟩

/-- No byte, one byte; the size field alone, all but the last byte. -/
theorem witness_IncompleteItemChangesNothing :
    (parsing []).phase = .parse 0 ∧ (parsing [6]).phase = .parse 1 ∧ 1 - (parsing [6]).cur < 2 ∧
    (∀ s ∈ [parsing [2, 0], parsing [2, 0, 0x61, 0x3A, 0x0D]],
      s.phase = .parse s.wp ∧ 2 ≤ s.wp - s.cur ∧
      legalSize (s.rxByte (s.cur + 1) ++ s.rxByte s.cur : Half).toNat = true ∧
      s.wp - s.cur < (s.rxByte (s.cur + 1) ++ s.rxByte s.cur : Half).toNat + 4) := by decide

/-- A buffer that differs behind the item; one that differs behind the size field of an item that is not all there;
one that differs at the fill position, of which a byte lies below it. -/
theorem witness_ParserReadsOnlyTheItem :
    (let s := parsing [0x55, 0xAA, 1, 2];
      s.phase = .parse 4 ∧ decode .link (s.rxBytes s.cur 4) = .instr .sync [1, 2] ∧
      (∀ k, k < (encode .sync).length →
        ({ s with rxbuf := Memory.store [] 0 [0x55, 0xAA, 7, 8] } : State).rxByte (s.cur + k) = s.rxByte (s.cur + k)) ∧
      Memory.store [] 0 [0x55, 0xAA, 7, 8] ≠ s.rxbuf) ∧
    (let s := parsing [2, 0, 0x61, 0x3A];
      s.phase = .parse 4 ∧ decode .link (s.rxBytes s.cur 4) = .needMore 2 ∧
      (∀ k, k < 2 → s.cur + k < 4 →
        ({ s with rxbuf := Memory.store [] 0 [2, 0, 7, 8] } : State).rxByte (s.cur + k) = s.rxByte (s.cur + k)) ∧
      Memory.store [] 0 [2, 0, 7, 8] ≠ s.rxbuf) ∧
    (let s := parsing [2];
      s.phase = .parse 1 ∧ decode .link (s.rxBytes s.cur 1) = .needMore 1 ∧
      (∀ k, k < 2 → s.cur + k < 1 →
        ({ s with rxbuf := Memory.store [] 0 [2, 9] } : State).rxByte (s.cur + k) = s.rxByte (s.cur + k)) ∧
      Memory.store [] 0 [2, 9] ≠ s.rxbuf) := by decide

/-- A frame without a colon, and the marker right behind it. -/
theorem witness_ItemBehindASkippedFrameIsRead :
    let bytes := encode (frameOf [0x6E, 0x6F]) ++ encode .sync
    (parsing bytes).phase = .parse bytes.length ∧ legalSize ([0x6E, 0x6F] : List Byte).length = true ∧
    Instr.sync.wf = true ∧ (parsing bytes).RxHolds (parsing bytes).cur bytes ∧
    (parsing bytes).cur + bytes.length ≤ bytes.length ∧ ∀ b ∈ ([0x6E, 0x6F] : List Byte), b ≠ Config.sep :=
  ⟨rfl, by decide, rfl, rxBytes_placeRx State.reset 0 _, Nat.le_of_eq (Nat.zero_add _), by decide⟩

/-- The other two causes: a key that is too long, a key without an entry. -/
theorem witness_ItemBehindASkippedFrameIsRead_keys :
    (∃ key body, ([1, 2, 3, 4, 5, 6, 7, 8, 0x3A] : List Byte) = key ++ Config.sep :: body ∧
      (∀ b ∈ key, b ≠ Config.sep) ∧ key.length > 7) ∧
    (∃ key body, ([0x7A, 0x3A] : List Byte) = key ++ Config.sep :: body ∧
      (∀ b ∈ key, b ≠ Config.sep) ∧ ∀ e ∈ (live []).reg, e.key ≠ key) :=
  ⟨⟨[1, 2, 3, 4, 5, 6, 7, 8], [], rfl, by decide, by decide⟩, ⟨[0x7A], [], rfl, by decide, by decide⟩⟩

theorem witness_TransmitRestartsAndSendsAFrame :
    (1 : Half).toNat ≤ ([0x78] : List Byte).length ∧ (0 : Half).toNat ≤ ([] : List Byte).length := by decide

theorem witness_TransmitPastTheEndSendsFreeBytes : ([0x78] : List Byte).length < (2 : Half).toNat := by decide

theorem witness_IdleEventIsRaisedOrDropped :
    (acting .raiseIdle).phase = .rest ∧ (acting .raiseIdle).inputs = .raiseIdle :: [.raiseIdle] ∧
    (acting .raiseIdle).rxa = true ∧ ({ acting .raiseIdle with rxa := false } : State).rxa = false := by decide

theorem witness_ReadValueIsTheAnswerOrTheContents :
    ({ live [] with reads := [some 1] } : State).reads = some 1 :: [] ∧
    ({ live [] with reads := [none] } : State).reads.head? = some none ∧ (live []).reads.head? = none :=
  ⟨rfl, rfl, rfl⟩

theorem witness_TargetMemoryIsLittleEndian : (0xFFFFFFFC : Word) &&& 3 = 0 ∧ (0 : Word) &&& 3 = 0 := by decide

theorem witness_SetBitSetsOneBit : (31 : Byte).toNat ≤ 31 ∧ 31 < (32 : Byte).toNat := by decide

theorem witness_ClearBitClearsOneBit : (0 : Byte).toNat ≤ 31 ∧ 31 < (255 : Byte).toNat := by decide

theorem witness_ModifyClassesReadThenWrite (v : Word) :
    (∃ imm, Instr.or32 0x1000 0 = .or32 0x1000 imm ∧ v ||| 0 = v ||| imm) ∧
    (∃ imm, Instr.and32 0x1000 5 = .and32 0x1000 imm ∧ v &&& 5 = v &&& imm) ∧
    (∃ mask value, Instr.mod32 0x1000 0xF0 0x10F = .mod32 0x1000 mask value ∧
      (v &&& ~~~0xF0) ||| 0x10F = (v &&& ~~~mask) ||| value) :=
  ⟨⟨0, rfl, rfl⟩, ⟨5, rfl, rfl⟩, ⟨0xF0, 0x10F, rfl, rfl⟩⟩

theorem witness_NopDoesNothing :
    (inFrame (.handler .ra [0x00, 0x10, 0x00])).phase = .handler .ra [0x00, 0x10, 0x00] ⟨6, 6⟩ ∧
    ([0x00, 0x10, 0x00] : List Byte).length < 4 ∧
    (([0x03, 0x10, 0x00, 0x00] : List Byte).length, (opField (le32 [0x03, 0x10, 0x00, 0x00] 0)).toNat) ∉
      [(4, 0), (4, 1), (4, 2), (5, 0), (5, 1), (5, 2), (6, 0), (8, 0), (8, 1), (8, 2), (12, 0)] := by decide

theorem witness_WordWrittenIsReadBack : (live []).reads.head? = none := rfl

/-- Stopped; an empty buffer; a full buffer, which wraps; the last free byte. -/
theorem witness_ByteArrivalFillsTheBuffer :
    ({ acting (.byte 7) with rxa := false } : State).rxa = false ∧ (acting (.byte 7)).phase = .rest ∧
    (acting (.byte 7)).inputs = .byte 7 :: [.raiseIdle] ∧ (acting (.byte 7)).rxa = true ∧
    (0 = if (acting (.byte 7)).wp = Config.rxCap then 0 else (acting (.byte 7)).wp) ∧
    (0 = if ({ acting (.byte 7) with wp := Config.rxCap } : State).wp = Config.rxCap then 0 else Config.rxCap) :=
  ⟨rfl, rfl, rfl, rfl, (ite_self 0).symm, (if_pos rfl).symm⟩

theorem witness_StartBeginsAReceiveCycle :
    (acting .start).phase = .rest ∧ (acting .start).inputs = .start :: [.raiseIdle] := ⟨rfl, rfl⟩

/-- V27, V28: a key of 8 bytes, a full registry, the last free slot. -/
theorem witness_RegisterAppendsOrIsIgnored :
    let full : State := { acting (.register [1, 2, 3, 4, 5, 6, 7] .ra) with reg := List.replicate 16 ⟨[], .ra⟩ }
    let last : State := { acting (.register [1, 2, 3, 4, 5, 6, 7] .ra) with reg := List.replicate 15 ⟨[], .ra⟩ }
    ([1, 2, 3, 4, 5, 6, 7, 8] : List Byte).length > 7 ∧ full.regn = 16 ∧ full.phase = .rest ∧
    last.regn = 15 ∧ last.inputs = .register [1, 2, 3, 4, 5, 6, 7] .ra :: [.raiseIdle] ∧
    ([1, 2, 3, 4, 5, 6, 7] : List Byte).length ≤ 7 := by decide

/-- The four cases: stopped, latched, the cursor one past the fill position, the cursor at it. -/
theorem witness_IdleEventBeginsItsStep :
    let s : State := { acting (.serve .idle) with idlePending := true }
    s.phase = .rest ∧ s.inputs = .serve .idle :: [.raiseIdle] ∧ s.idlePending = true ∧ s.tcPending = false ∧
    ({ s with rxa := false } : State).rxa = false ∧ (s.rxa = true ∧ ({ s with err := true } : State).err = true) ∧
    (s.err = false ∧ ({ s with cur := 1 } : State).wp < ({ s with cur := 1 } : State).cur) ∧ s.cur ≤ s.wp := by decide

theorem witness_TransferCompleteLatches :
    let s : State := { acting (.serve .idle) with tcPending := true }
    s.phase = .rest ∧ s.inputs = .serve .idle :: [.raiseIdle] ∧ s.idlePending = false ∧ s.tcPending = true ∧
    s.rxa = true ∧ ({ s with rxa := false } : State).rxa = false := by decide

/-- A full buffer, and one byte into the next lap. -/
theorem witness_EventOrderAtAFullBuffer :
    let s : State := { acting (.serve .idle) with idlePending := true, tcPending := true, wp := Config.rxCap }
    s.phase = .rest ∧ s.idlePending = true ∧ s.tcPending = true ∧ s.rxa = true ∧ s.wp = Config.rxCap ∧
    s.err = false ∧ s.cur ≤ s.wp ∧ ({ s with err := true } : State).err = true ∧
    ({ s with wp := 1 } : State).wp ≠ Config.rxCap :=
  ⟨rfl, rfl, rfl, rfl, rfl, rfl, Nat.zero_le _, rfl, fun h => by
    have := Config.rxCap_ge
    rw [← h] at this
    exact absurd this (by decide)⟩

/-- The marker fills the region; the region is one byte too short; the marker is not at its end. -/
theorem witness_TailInspectionSeesOnlyTheDoubledMarker :
    let s : State := { live [0x55, 0xAA, 0x55, 0xAA, 0] with err := true, phase := .tail 4 }
    s.phase = .tail 4 ∧ (4 ≤ 4 ∧ s.rxByte (4 - 4) = 0x55 ∧ s.rxByte (4 - 3) = 0xAA ∧ s.rxByte (4 - 2) = 0x55 ∧
      s.rxByte (4 - 1) = 0xAA) ∧ ¬4 ≤ 3 ∧ s.rxByte (5 - 1) ≠ 0xAA := by decide

theorem witness_StepRunsTheDecodedInstruction :
    ((parsing [0x55, 0xAA]).phase = .parse 2 ∧
      decode .link ((parsing [0x55, 0xAA]).rxBytes 0 2) = .instr .sync []) ∧
    (let s : State := { live [0x55, 0xAA, 0x55, 0xAA] with err := true, phase := .tail 4 };
      s.phase = .tail 4 ∧ decode .tail (s.rxBytes (4 - 4) 4) = .instr .sync4 []) ∧
    (decode .body [0x01, 0x10, 0x00, 0x00] = .instr (.rd8 0x1000) [] ∧
      ∃ u, exec (.rd8 0x1000) (inFrame (.handler .ra [0x01, 0x10, 0x00, 0x00])) = .next u) ∧
    (∃ u, exec (.reply 1 [0x78]) (inFrame (.uplink [⟨1, [0x78]⟩] true)) = .next u) ∧
    (∃ u, exec .ack { live [] with phase := .ackDue } = .next u) :=
  ⟨by decide, by decide, ⟨by decide, _, rfl⟩, ⟨_, rfl⟩, ⟨_, rfl⟩⟩

theorem witness_PlacedWordIsFetched :
    decodeTableWord 16 0xAA55 = some .sync ∧ decodeTableWord 32 0x1001 = some (.rd8 0x1000) ∧
    (State.reset.withFetchWord 32 0x1001).fetch = .instr (.rd8 0x1000) := by decide

/-- A running block in its parse loop, and the step it takes. -/
theorem witness_EveryStepKeepsTheInvariant : (parsing [0x01, 0x00, 0x41]).Inv ∧
    step (parsing [0x01, 0x00, 0x41]) = .next (parsing [0x01, 0x00, 0x41]).transportError :=
  ⟨inv_of_short _ rfl rfl rfl (by decide) (by decide) (by decide) (by decide) (.inr (by decide))
    ⟨rfl, rfl, rfl, by decide, rfl⟩, rfl⟩

theorem witness_DefensiveLineIsUnreachable :
    let s : State := { live [7] with idlePending := true }
    s.Inv ∧ s.nextEvent .transferComplete = some .idle ∧ s.err = false :=
  ⟨inv_of_short _ rfl rfl rfl (by decide) (by decide) (by decide) (by decide) (.inr (by decide)) rfl, rfl, rfl⟩

theorem witness_ReceptionStaysActive : (live []).rxa = true ∧ step (live []) = .next (live []) := ⟨rfl, rfl⟩

/-- The block before its first start, with a handler already registered: bytes are lost, `start()` starts it. -/
theorem witness_StoppedBlockIgnoresTheLink :
    let s : State := { State.reset with reg := [⟨Config.raKey, .ra⟩], inputs := [.byte 1, .start] }
    let u : State := { State.reset with reg := [⟨Config.raKey, .ra⟩], inputs := [.start] }
    s.Inv ∧ s.rxa = false ∧ s.phase = .rest ∧ step s = .next u ∧ (∃ t, step u = .next t ∧ t.rxa = true) := by
  have h0 := rxCap_pos
  refine ⟨⟨rfl, ?_, rfl, ?_, ?_, ?_, Nat.zero_le _, Nat.zero_le _, fun _ _ => ⟨le_refl _, h0⟩, fun _ => ?_, rfl⟩, rfl, rfl, rfl,
    _, rfl, rfl⟩
  · intro c hc
    cases hc
  · intro c hc
    cases hc
  · decide
  · decide
  · exact ⟨rfl, rfl, rfl, rfl, rfl, .inl rfl⟩

theorem witness_OutputsAndRegistryOnlyGrow :
    ∃ t, step (inFrame (.handler .ra [0x01, 0x10, 0x00, 0x00])) = .next t ∧ t.tx.length = 5 ∧ t.memLog.length = 1 :=
  ⟨_, rfl, by decide, by decide⟩

theorem witness_AccessesAreAlignedAndAsDeclared :
    ∃ t, step (inFrame (.handler .ra [0x00, 0x10, 0x00, 0x00, 0x05])) = .next t ∧ t.memLog.length = 2 :=
  ⟨_, rfl, by decide⟩

theorem witness_OnlyByteArrivalWritesTheBuffer :
    ∃ t, step (acting (.byte 7)) = .next t ∧ t.rxbuf ≠ (acting (.byte 7)).rxbuf := by
  refine ⟨_, step_agent rfl rfl, ?_⟩
  rw [State.agentStep, byteArrives_active _ _ rfl]
  have h0 : ¬0 = Config.rxCap := Nat.ne_of_lt rxCap_pos
  simp [State.storeRx, State.storeAt, acting, live, h0, Memory.store, Memory.set, State.reset]

theorem witness_MemAndTheBlockAreDisjoint :
    (∃ t, step (inFrame (.handler .ra [0x01, 0x10, 0x00, 0x00, 0xAB])) = .next t ∧
      t.mem ≠ (inFrame (.handler .ra [0x01, 0x10, 0x00, 0x00, 0xAB])).mem) ∧
    (∃ t, step (acting (.memWrite [(5, 6)])) = .next t ∧ t.mem ≠ (acting (.memWrite [(5, 6)])).mem) :=
  ⟨⟨_, rfl, by decide⟩, ⟨_, rfl, by decide⟩⟩

/-- The frame `"a:"`, whole, at the end of a buffer that may be full: the cursor moves by 6. -/
theorem witness_CursorMovesByWholeFrames :
    let s : State := { parsing (encode (frameOf [0x61, 0x3A])) with tcPending := true }
    s.Inv ∧ ∃ t, step s = .next t ∧ t.cur = s.cur + 6 := by
  have hd : decode .link (encode (frameOf [0x61, 0x3A])) = .instr (frameOf [0x61, 0x3A]) [] := by
    simp [frameOf, encode, envelope, bytesLe_two, decode, decodeLink, le16, Config.syncMarker, Config.sizeMin,
      half_of_bytes]
  have hrx : (parsing (encode (frameOf [0x61, 0x3A]))).rxBytes 0 6 = encode (frameOf [0x61, 0x3A]) :=
    rxBytes_placeRx State.reset 0 _
  refine ⟨inv_of_short _ rfl rfl rfl ?_ ?_ (Nat.zero_le _) (by decide) (.inl rfl) ⟨rfl, rfl, rfl, Nat.zero_le _, rfl⟩,
    { parsing (encode (frameOf [0x61, 0x3A])) with
      tcPending := true, cur := 6, outcome := some (.formatError 6 .noHandler) }, ?_, rfl⟩
  · exact Memory.wf_store rfl _ _
  · intro c hc
    rcases Memory.mem_store hc with hc | hc
    · have h6 : (encode (frameOf [0x61, 0x3A])).length = 6 := rfl
      rw [h6] at hc
      omega
    · cases hc
  · rw [step_instr (i := frameOf [0x61, 0x3A])]
    · simp [exec, frameOf, execFrame, colonIndex, Config.sep, Config.keyMax, List.findIdx?_cons]
      rfl
    · rw [fetch_parse _ 6 rfl]
      exact congrArg Fetched.ofDecoded ((congrArg (decode .link) hrx).trans hd)

/-- The handler of a 6-byte frame has returned: the cursor moves by 6. -/
theorem witness_CursorMovesByWholeFrames_returned :
    let s : State := { inFrame .returned with tcPending := true }
    s.Inv ∧ ∃ t, step s = .next t ∧ t.cur = s.cur + 6 :=
  ⟨inv_of_short _ rfl rfl rfl (by decide) (by decide) (by decide) (by decide) (.inl rfl)
    ⟨rfl, rfl, by decide, by decide, rfl⟩, _, rfl, rfl⟩

/-- Latched, between event steps and inside one. -/
theorem witness_LatchedBlockExecutesNothing :
    let s : State := { live [1, 2, 3] with err := true, cur := 1, phase := .tail 3 }
    s.Inv ∧ s.err = true ∧ step s = .next s.endEvent ∧ s.endEvent.err = true :=
  ⟨inv_of_short _ rfl rfl rfl (by decide) (by decide) (by decide) (by decide) (.inr (by decide)) ⟨rfl, rfl, rfl, rfl⟩,
    rfl, rfl, rfl⟩

/-- The two ways out: the doubled marker, and `start()`. -/
theorem witness_OnlyARestartLeavesTheLatchedState :
    (let s : State := { live [0x55, 0xAA, 0x55, 0xAA] with err := true, phase := .tail 4 };
      s.Inv ∧ s.err = true ∧ ∃ t, step s = .next t ∧ t.err = false) ∧
    (let s : State := { acting .start with err := true };
      s.Inv ∧ s.err = true ∧ ∃ t, step s = .next t ∧ t.err = false) :=
  ⟨⟨inv_of_short _ rfl rfl rfl (by decide) (by decide) (by decide) (by decide) (.inr (by decide)) ⟨rfl, rfl, rfl, rfl⟩,
      rfl, _, rfl, rfl⟩,
    ⟨inv_of_short _ rfl rfl rfl (by decide) (by decide) (by decide) (by decide) (.inr (by decide)) rfl, rfl, _, rfl,
      rfl⟩⟩

/-- Two of the ways in: an illegal size, and the transfer-complete event. -/
theorem witness_LatchedStateIsEnteredPrecisely :
    (let s := parsing [0x00, 0x00];
      s.Inv ∧ s.err = false ∧ ∃ t, step s = .next t ∧ t.err = true) ∧
    (let s : State := { acting (.serve .idle) with tcPending := true };
      s.Inv ∧ s.err = false ∧ ∃ t, step s = .next t ∧ t.err = true) :=
  ⟨⟨inv_of_short _ rfl rfl rfl (by decide) (by decide) (by decide) (by decide) (.inr (by decide))
      ⟨rfl, rfl, rfl, by decide, rfl⟩, rfl, _, rfl, rfl⟩,
    ⟨inv_of_short _ rfl rfl rfl (by decide) (by decide) (by decide) (by decide) (.inl rfl) rfl, rfl, _, rfl, rfl⟩⟩

/-- A whole frame of the Register-Access Handler at the cursor. -/
theorem witness_RegisterAccessFrameRunsItsMicroInstruction (i : Instr)
    (hi : i ∈ [Instr.rd32 0x1000, .wr8 0x1000 0xAB, .mod32 0x1000 0x0F 5, .nop []]) :
    let s := parsing (encode (frameOf (raPayload (encode i))))
    s.phase = .parse s.wp ∧ s.txf = false ∧ s.reg[0]? = some ⟨Config.raKey, .ra⟩ ∧
    (∀ j, j < 0 → ∀ e, s.reg[j]? = some e → e.key ≠ Config.raKey) ∧ i.wf = true ∧ i.level = .body ∧
    legalSize ((encode i).length + 2) = true ∧ s.RxHolds s.cur (encode (frameOf (raPayload (encode i)))) ∧
    s.cur + ((encode i).length + 6) ≤ s.wp := by
  have hrx := rxBytes_placeRx State.reset 0 (encode (frameOf (raPayload (encode i))))
  have hl : ∀ i ∈ [Instr.rd32 0x1000, .wr8 0x1000 0xAB, .mod32 0x1000 0x0F 5, .nop []],
      i.wf = true ∧ i.level = .body ∧ legalSize ((encode i).length + 2) = true := by decide
  obtain ⟨h1, h2, h3⟩ := hl i hi
  refine ⟨rfl, rfl, rfl, fun j hj => absurd hj (Nat.not_lt_zero j), h1, h2, h3, hrx, ?_⟩
  show 0 + _ ≤ (encode (frameOf (raPayload (encode i)))).length
  rw [frameOf, encode.eq_1, envelope_length]
  simp [raPayload, Config.raKey]

/-- A silent handler, and one that transmits twice. -/
theorem witness_ExternalHandlerTransmitsInOrder :
    (let s : State := { inFrame (.handler (.ext 0) [0x78]) with handlers := [⟨[], [], true⟩] };
      s.phase = .handler (.ext 0) [0x78] ⟨6, 6⟩ ∧ s.txf = false ∧ s.handlers = ⟨[], [], true⟩ :: []) ∧
    (∀ r ∈ ([⟨1, [0x78]⟩, ⟨0, [0x79]⟩] : List TxRequest), r.size.toNat ≤ r.data.length) := by decide

/-- A running event step with a handler to come that returns after one transmission; one with a transmission under
way. -/
theorem witness_EventStepEnds :
    (let s : State := { parsing [7] with handlers := [⟨[], [⟨1, [0x78]⟩], true⟩] };
      s.Inv ∧ (∀ r ∈ s.handlers, r.returns = true) ∧ (∀ requests ctx, s.phase ≠ .uplink requests false ctx) ∧
      s.sendsDue = 1) ∧
    (let s : State := { live [] with phase := .uplink [⟨1, [0x78]⟩] true ⟨6, 6⟩, txf := true };
      s.Inv ∧ (∀ r ∈ s.handlers, r.returns = true) ∧ (∀ requests ctx, s.phase ≠ .uplink requests false ctx) ∧
      s.sendsDue = 1) :=
  ⟨⟨inv_of_short _ rfl rfl rfl (by decide) (by decide) (by decide) (by decide) (.inr (by decide))
      ⟨rfl, rfl, rfl, by decide, rfl⟩, by decide, (fun _ _ h => by cases h), by decide⟩,
    inv_of_short _ rfl rfl rfl (by decide) (by decide) (by decide) (by decide) (.inr (by decide))
      ⟨rfl, rfl, rfl, rfl, rfl, rfl⟩, by decide, (fun _ _ h => by cases h), by decide⟩

/-- A call the script says nothing of; one that asks for a byte more than it gives; two that do not
return, with and without a transmission. -/
theorem witness_ExternalHandlerCallsOfEveryKind :
    let s := inFrame (.handler (.ext 0) [0x78])
    s.phase = .handler (.ext 0) [0x78] ⟨6, 6⟩ ∧ s.txf = false ∧ s.handlers = [] ∧
    ({ s with handlers := [⟨[], [⟨2, [0x78]⟩], true⟩] } : State).handlers = ⟨[], [⟨2, [0x78]⟩], true⟩ :: [] ∧
    ([⟨2, [0x78]⟩] : List TxRequest) ≠ [] ∧
    ({ s with handlers := [⟨[], [], false⟩] } : State).handlers = ⟨[], [], false⟩ :: [] ∧
    ({ s with handlers := [⟨[], [⟨2, [0x78]⟩], false⟩] } : State).handlers = ⟨[], [⟨2, [0x78]⟩], false⟩ :: [] := by
  decide

end Sys2Proof.Tests
end

section
/-! A frame whose CRC does not match, and the frames one flipped bit away from a good one (R125, R8 P2). -/

namespace Sys2Proof.Config

/-- A flipped bit makes a word different, at every width. -/
theorem ne_xor_bit {w k : Nat} (x : BitVec w) (hk : k < w) : x ≠ x ^^^ (1#w <<< k) := by
  intro h
  have hbit : x.getLsbD k = (x ^^^ (1#w <<< k)).getLsbD k := congrArg (·.getLsbD k) h
  simp [hk] at hbit

end Sys2Proof.Config

namespace Sys2Proof.Machine

theorem exec_frame_of_crc_ne {payload : List Byte} {crc : Half} (h : Config.crc16 payload ≠ crc) (s : State) :
    exec (.frame payload crc) s = .next s.transportError := by
  obtain ⟨_, hexec⟩ | ⟨_, hcrc, _⟩ | ⟨_, _, hcrc, _⟩ := execFrame_cases payload crc s
  · exact hexec
  · exact absurd hcrc h
  · exact absurd hcrc h

/-- Settles O8: P2 gives the CRC mismatch for the flipped payload; the flipped CRC field is another word. -/
theorem singleBitFlipLatches : Obligations.SingleBitFlipLatches := by
  intro payload s
  constructor
  · intro q hflip
    have hcrc : Config.crc16 q ≠ Config.crc16 payload := (Config.crc16_singleBitSensitive payload q hflip).symm
    exact exec_frame_of_crc_ne hcrc s
  · intro k
    exact exec_frame_of_crc_ne (Config.ne_xor_bit (Config.crc16 payload) k.isLt) s

end Sys2Proof.Machine
end

section
/-! The invariant: what it says at each point of an event step, the changes of a state that keep it, and every step
made of them (10_state.md R22 to R32, R45, R48). -/

namespace Sys2Proof.Machine

/-! ## The running event step -/

theorem phaseOk_rest {s : State} (h : s.phase = .rest) : s.PhaseOk ↔ s.txf = false := by
  simp only [State.PhaseOk, h]

theorem phaseOk_of_rest {s : State} (h : s.phase = .rest) (htxf : s.txf = false) : s.PhaseOk := (phaseOk_rest h).2 htxf

theorem phaseOk_parse {s : State} {wp : Nat} (h : s.phase = .parse wp) :
    s.PhaseOk ↔ s.txf = false ∧ s.err = false ∧ s.rxa = true ∧ s.cur ≤ wp ∧ wp = s.wp := by
  simp only [State.PhaseOk, h]

theorem phaseOk_tail {s : State} {wp : Nat} (h : s.phase = .tail wp) :
    s.PhaseOk ↔ s.txf = false ∧ s.err = true ∧ s.rxa = true ∧ wp = s.wp := by
  simp only [State.PhaseOk, h]

theorem phaseOk_handler {s : State} {hd : HandlerId} {body : List Byte} {ctx : FrameCtx}
    (h : s.phase = .handler hd body ctx) :
    s.PhaseOk ↔
      s.txf = false ∧ s.err = false ∧ s.rxa = true ∧ 6 ≤ ctx.total ∧ s.cur + ctx.total ≤ ctx.wp ∧ ctx.wp = s.wp := by
  simp only [State.PhaseOk, h]

/-- While a handler runs and once it has returned: nothing has been transmitted and the frame lies below the fill
position, or a transmission has restarted reception. -/
theorem phaseOk_afterCall {s : State} {ctx : FrameCtx}
    (h : s.phase = .returned ctx ∨ ∃ requests ret, s.phase = .uplink requests ret ctx) :
    s.PhaseOk ↔ s.err = false ∧ s.rxa = true ∧
      (s.txf = true ∧ s.cur = 0 ∧ s.wp = 0 ∧ s.idlePending = false ∧ s.tcPending = false ∨
        s.txf = false ∧ 6 ≤ ctx.total ∧ s.cur + ctx.total ≤ ctx.wp ∧ ctx.wp = s.wp) := by
  rcases h with h | ⟨requests, ret, h⟩ <;> cases htxf : s.txf <;> simp [State.PhaseOk, h, htxf]

/-! ## Changes of a state that keep the invariant -/

/-- The outputs, the records and the environment's lists are not the invariant's. -/
theorem State.Inv.congr {s t : State} (hs : s.Inv)
    (h : t = { s with
      tx := t.tx, outcome := t.outcome, memLog := t.memLog, calls := t.calls, inputs := t.inputs, reads := t.reads
      handlers := t.handlers, free := t.free }) : t.Inv := by
  rw [h]
  exact ⟨hs.memWf, hs.memRange, hs.rxWf, hs.rxRange, hs.regCap, hs.keyCap, hs.curCap, hs.wpCap, hs.behind, hs.stopped,
    hs.phaseOk⟩

theorem State.Inv.withPhase {s : State} (hs : s.Inv) (hrxa : s.rxa = true) {p : Phase}
    (hp : ({ s with phase := p } : State).PhaseOk) : ({ s with phase := p } : State).Inv :=
  { hs with
    stopped := fun h => Bool.noConfusion (hrxa.symm.trans h)
    phaseOk := hp }

theorem State.Inv.withMem {s : State} (hs : s.Inv) {m : Memory} (hwf : m.wf = true) (hrange : ∀ c ∈ m, c.1 < 2 ^ 32) :
    ({ s with mem := m } : State).Inv :=
  { hs with
    memWf := hwf
    memRange := hrange }

theorem State.Inv.memChange {s : State} (hs : s.Inv) (cells : List Host.Cell) :
    ({ s with mem := s.mem.change cells } : State).Inv :=
  hs.withMem (Memory.wf_change hs.memWf cells) fun c hc => (Memory.mem_change hc).elim id (hs.memRange c)

/-- The parse loop runs from any cursor up to the write position. -/
theorem State.Inv.parseFrom {s : State} (hs : s.Inv) (htxf : s.txf = false) (herr : s.err = false)
    (hrxa : s.rxa = true) {c wp : Nat} (hc : c ≤ wp) (hwp : wp = s.wp) :
    ({ s with cur := c, phase := .parse wp } : State).Inv :=
  { hs with
    curCap := hc.trans (hwp ▸ hs.wpCap)
    behind := fun herr htc => ⟨hwp ▸ hc, (hs.behind herr htc).2⟩
    stopped := fun h => Bool.noConfusion (hrxa.symm.trans h)
    phaseOk := (phaseOk_parse rfl).2 ⟨htxf, herr, hrxa, hc, hwp⟩ }

/-- The error may be latched at the end of any event step that has transmitted nothing. -/
theorem State.Inv.latched {s : State} (hs : s.Inv) (hrxa : s.rxa = true) (htxf : s.txf = false) {tc : Bool}
    {p : Phase} (hp : p = .rest) : ({ s with err := true, tcPending := tc, phase := p } : State).Inv :=
  { hs with
    behind := fun herr => Bool.noConfusion herr
    stopped := fun h => Bool.noConfusion (hrxa.symm.trans h)
    phaseOk := phaseOk_of_rest hp htxf }

/-- Between event steps an idle event may be raised, or taken out of `EVQ`, while reception is active. -/
theorem State.Inv.withIdle {s : State} (hs : s.Inv) (hp : s.phase = .rest) (hrxa : s.rxa = true) (idle : Bool) :
    ({ s with idlePending := idle } : State).Inv :=
  { hs with
    stopped := fun h => Bool.noConfusion (hrxa.symm.trans h)
    phaseOk := phaseOk_of_rest hp ((phaseOk_rest hp).1 hs.phaseOk) }

/-- A restart of reception gives the receive registers values that are always in order. -/
theorem State.Inv.of_restarted {s t : State} (hs : s.Inv) (ht : Restarted t) (hmem : t.mem = s.mem)
    (hrx : t.rxbuf = s.rxbuf) (hreg : t.reg = s.reg) (hp : t.PhaseOk) : t.Inv := by
  obtain ⟨hcur, hwp, -, hrxa, -, -⟩ := ht
  have hcap := Config.rxCap_ge
  exact {
    memWf := hmem ▸ hs.memWf
    memRange := hmem ▸ hs.memRange
    rxWf := hrx ▸ hs.rxWf
    rxRange := hrx ▸ hs.rxRange
    regCap := hreg ▸ hs.regCap
    keyCap := hreg ▸ hs.keyCap
    curCap := by omega
    wpCap := by omega
    behind := fun _ _ => by omega
    stopped := fun h => Bool.noConfusion (hrxa.symm.trans h)
    phaseOk := hp }

theorem restarted_transmit (s : State) (size : Half) (data : List Byte) : Restarted (transmit s size data) :=
  ⟨rfl, rfl, rfl, rfl, rfl, rfl⟩

theorem restarted_handshake (s : State) : Restarted (handshake s) := ⟨rfl, rfl, rfl, rfl, rfl, rfl⟩

/-- The handshake ends an event step in order, whatever the outcome it reports. -/
theorem State.Inv.afterHandshake {s : State} (hs : s.Inv) {o : Option ParseOutcome} :
    ({ handshake s with outcome := o, phase := .rest } : State).Inv :=
  hs.of_restarted (restarted_handshake s) rfl rfl rfl (phaseOk_of_rest rfl rfl)

/-! ## Link items -/

/-- A frame that is decoded has a legal size and lies wholly in the bytes it is read from. -/
theorem decodeLink_frame_length {b payload rest : List Byte} {crc : Half}
    (h : decodeLink b = .instr (.frame payload crc) rest) : 2 ≤ payload.length ∧ payload.length + 4 ≤ b.length := by
  rcases decodeLink_cases b with ⟨_, hd⟩ | ⟨_, _, hd⟩ | ⟨_, _, hd⟩ | ⟨_, _, _, hd⟩ | ⟨hl, hb, hd⟩ <;> rw [h] at hd <;>
    cases hd
  have hsize := (legalSize_iff _).1 hl
  simp only [List.length_take, List.length_drop]
  omega

/-- What a decoded link item does: a marker, an error, or a frame, which is skipped or handed to a handler. -/
theorem linkItem_cases {s u : State} {b rest : List Byte} {i : Instr} (hd : decodeLink b = .instr i rest)
    (hx : exec i s = .next u) :
    u = (handshake s).syncOutcome ∨ u = s.transportError ∨
    ∃ payload crc, i = .frame payload crc ∧
      ((∃ c, u = s.formatError (payload.length + 4) c) ∨ ∃ h body, u = s.invoke h body (payload.length + 4)) := by
  rcases decodeLink_cases b with ⟨_, h⟩ | ⟨_, _, h⟩ | ⟨_, _, h⟩ | ⟨_, _, _, h⟩ | ⟨_, _, h⟩ <;> rw [hd] at h <;> cases h
  case inr.inl => cases hx; exact .inl rfl
  case inr.inr.inl => cases hx; exact .inr (.inl rfl)
  case inr.inr.inr.inr =>
    refine .inr ?_
    rw [exec] at hx
    rcases execFrame_cases _ _ s with ⟨_, h⟩ | ⟨c, _, h⟩ | ⟨handler, body, _, h⟩ <;> rw [h] at hx <;> cases hx
    · exact .inl rfl
    · exact .inr ⟨_, _, rfl, .inl ⟨c, rfl⟩⟩
    · exact .inr ⟨_, _, rfl, .inr ⟨handler, body, rfl⟩⟩

theorem State.Inv.linkItem {s u : State} (hs : s.Inv) {wp : Nat} {i : Instr} {rest : List Byte}
    (hp : s.phase = .parse wp) (hd : decodeLink (s.rxBytes s.cur wp) = .instr i rest) (hx : exec i s = .next u) :
    u.Inv := by
  obtain ⟨htxf, herr, hrxa, _, hwp⟩ := (phaseOk_parse hp).1 hs.phaseOk
  rcases linkItem_cases hd hx with rfl | rfl | ⟨payload, crc, rfl, hu⟩
  · exact hs.afterHandshake
  · exact (hs.latched hrxa htxf rfl).congr rfl
  · obtain ⟨hmin, hlen⟩ := decodeLink_frame_length hd
    rw [rxBytes_length] at hlen
    rcases hu with ⟨c, rfl⟩ | ⟨handler, body, rfl⟩
    · have hcur : s.cur + (payload.length + 4) ≤ wp := by omega
      exact (hs.parseFrom htxf herr hrxa hcur hwp).congr (hp ▸ rfl)
    · have hsampled : s.sampledWp = wp := by simp only [State.sampledWp, hp]
      refine hs.withPhase hrxa ((phaseOk_handler rfl).2 ⟨htxf, herr, hrxa, ?_, ?_, hsampled.trans hwp⟩)
      · show 6 ≤ payload.length + 4
        omega
      · show s.cur + (payload.length + 4) ≤ s.sampledWp
        omega

/-! ## Micro-instructions and external handlers -/

theorem State.Inv.afterWrite {s : State} (hs : s.Inv) (a : Word) (w : Width) (v : Word) :
    (memWrite s (target a) w v).Inv := by
  refine (hs.withMem (Memory.wf_store hs.memWf (target a).toNat (bytesLe v w.bytes)) fun c hc => ?_).congr rfl
  have hbound : (target a).toNat + 3 < 2 ^ 32 := (aligned_bound a).1
  have hw : w.bytes ≤ 4 := by cases w <;> decide
  rcases Memory.mem_store hc with ⟨_, hlt⟩ | hc
  · rw [bytesLe_length] at hlt
    omega
  · exact hs.memRange c hc

/-- Behind a transmission only the restarted registers matter, not the frame that led to it. -/
theorem State.Inv.afterTransmit {s : State} (hs : s.Inv) (size : Half) (data : List Byte) {p : Phase} {ctx : FrameCtx}
    (hp : p = .returned ctx ∨ ∃ requests ret, p = .uplink requests ret ctx) :
    ({ transmit s size data with phase := p } : State).Inv :=
  hs.of_restarted (restarted_transmit s size data) rfl rfl rfl
    ((phaseOk_afterCall hp).2 ⟨rfl, rfl, .inl ⟨rfl, rfl, rfl, rfl, rfl⟩⟩)

/-- A handler that has transmitted nothing leaves the frame it was called for below the fill position. -/
theorem State.Inv.afterCall {s : State} (hs : s.Inv) (htxf : s.txf = false) (herr : s.err = false)
    (hrxa : s.rxa = true) {p : Phase} {ctx : FrameCtx}
    (hframe : 6 ≤ ctx.total ∧ s.cur + ctx.total ≤ ctx.wp ∧ ctx.wp = s.wp)
    (hp : p = .returned ctx ∨ ∃ requests ret, p = .uplink requests ret ctx) :
    ({ s with phase := p } : State).Inv :=
  hs.withPhase hrxa ((phaseOk_afterCall hp).2 ⟨herr, hrxa, .inr ⟨htxf, hframe⟩⟩)

theorem State.Inv.microWrite {s : State} (hs : s.Inv) {hd : HandlerId} {body : List Byte} {ctx : FrameCtx}
    (hp : s.phase = .handler hd body ctx) (a : Word) (w : Width) (v : Word) :
    ({ memWrite s (target a) w v with phase := .returned ctx } : State).Inv := by
  obtain ⟨htxf, herr, hrxa, hframe⟩ := (phaseOk_handler hp).1 hs.phaseOk
  exact (hs.afterWrite a w v).afterCall htxf herr hrxa hframe (.inl rfl)

theorem State.Inv.micro {s u : State} (hs : s.Inv) {hd : HandlerId} {body : List Byte} {ctx : FrameCtx}
    (hp : s.phase = .handler hd body ctx) (he : MicroEffect s u) : ({ u with phase := .returned ctx } : State).Inv := by
  obtain ⟨htxf, herr, hrxa, hframe⟩ := (phaseOk_handler hp).1 hs.phaseOk
  have hread : ∀ a w, (s.afterRead a w).Inv := fun a w => hs.congr rfl
  cases he with
  | none => exact hs.afterCall htxf herr hrxa hframe (.inl rfl)
  | read a w =>
    rw [readAndReply_eq]
    exact (hread (target a) w).afterTransmit _ _ (.inl rfl)
  | write a w v => exact hs.microWrite hp a w v
  | modify a f =>
    rw [readModifyWrite_eq]
    exact (hread (target a) .word).microWrite hp a .word _

theorem State.Inv.callExternal {s : State} (hs : s.Inv) {hd : HandlerId} {body : List Byte} {ctx : FrameCtx}
    (hp : s.phase = .handler hd body ctx) : (s.callExternal hd body ctx).Inv := by
  obtain ⟨htxf, herr, hrxa, hframe⟩ := (phaseOk_handler hp).1 hs.phaseOk
  exact ((hs.memChange s.nextReply.mem).afterCall htxf herr hrxa hframe (.inr ⟨_, _, rfl⟩)).congr rfl

theorem parserReturn_of_txf {s : State} (h : s.txf = true) (ctx : FrameCtx) :
    s.parserReturn ctx = { s with txf := false, outcome := some .sync, phase := .rest } := by
  rw [State.parserReturn, if_pos h]
  rfl

theorem parserReturn_of_silent {s : State} (h : s.txf = false) (ctx : FrameCtx) :
    s.parserReturn ctx = s.consumed ctx := by
  simp [State.parserReturn, h]

theorem State.Inv.parserReturn {s : State} (hs : s.Inv) {ctx : FrameCtx}
    (hp : s.phase = .returned ctx ∨ ∃ requests ret, s.phase = .uplink requests ret ctx) :
    (s.parserReturn ctx).Inv := by
  obtain ⟨herr, hrxa, ⟨htxf, hcur, hwp, hidle, htc⟩ | ⟨htxf, _, hframe, hctx⟩⟩ :=
    (phaseOk_afterCall hp).1 hs.phaseOk
  · rw [parserReturn_of_txf htxf]
    exact hs.of_restarted ⟨hcur, hwp, herr, hrxa, hidle, htc⟩ rfl rfl rfl (phaseOk_of_rest rfl rfl)
  · rw [parserReturn_of_silent htxf]
    exact (hs.parseFrom htxf herr hrxa hframe hctx).congr rfl

/-! ## The other agents -/

/-- A byte is stored inside the buffer. -/
theorem State.Inv.storeAt_lt {s : State} (hs : s.Inv) : s.storeAt < Config.rxCap := by
  have hwp := hs.wpCap
  have hcap := Config.rxCap_ge
  unfold State.storeAt
  split <;> omega

theorem State.Inv.stored {s : State} (hs : s.Inv) (hp : s.phase = .rest) (hrxa : s.rxa = true) (b : Byte) :
    ({ s.storeRx b with tcPending := s.tcPending || decide (s.storeAt + 1 = Config.rxCap) } : State).Inv :=
  { hs with
    rxWf := Memory.wf_set hs.rxWf _ b
    rxRange := fun c hc => (Memory.mem_set hc).elim (fun h => h ▸ hs.storeAt_lt) (hs.rxRange c)
    wpCap := hs.storeAt_lt
    behind := fun herr htc => by
      obtain ⟨htc, hlast⟩ : s.tcPending = false ∧ s.storeAt + 1 ≠ Config.rxCap := by simpa using htc
      obtain ⟨hcur, hfree⟩ := hs.behind herr htc
      have hat : s.storeAt = s.wp := if_neg (Nat.ne_of_lt hfree)
      show s.cur ≤ s.storeAt + 1 ∧ s.storeAt + 1 < Config.rxCap
      omega
    stopped := fun h => Bool.noConfusion (hrxa.symm.trans h)
    phaseOk := phaseOk_of_rest hp ((phaseOk_rest hp).1 hs.phaseOk) }

theorem State.Inv.registered {s : State} (hs : s.Inv) (hp : s.phase = .rest) {key : List Byte} {h : HandlerId}
    (hkey : key.length ≤ 7) (hfree : s.regn ≠ 16) : ({ s with reg := s.reg ++ [⟨key, h⟩] } : State).Inv :=
  { hs with
    regCap := by
      have hcap : s.reg.length ≤ 16 := hs.regCap
      have hne : s.reg.length ≠ 16 := hfree
      show (s.reg ++ [_]).length ≤ 16
      rw [List.length_append, List.length_singleton]
      omega
    keyCap := fun e he => by
      rcases List.mem_append.1 he with he | he
      · exact hs.keyCap e he
      · rw [List.mem_singleton.1 he]
        exact hkey
    phaseOk := phaseOk_of_rest hp ((phaseOk_rest hp).1 hs.phaseOk) }

theorem State.Inv.nextEvent_of_stopped {s : State} (hs : s.Inv) (hrxa : s.rxa = false) (first : Event) :
    s.nextEvent first = none := by
  obtain ⟨_, _, _, hidle, htc, _⟩ := hs.stopped hrxa
  simp [State.nextEvent, hidle, htc]

theorem State.Inv.agent {s t : State} (hs : s.Inv) (hp : s.phase = .rest) {i : Input} (he : AgentEffect s i t) :
    t.Inv := by
  have htxf := (phaseOk_rest hp).1 hs.phaseOk
  cases he with
  | lost | dropped | noEvent | ignored => exact hs
  | stored b hrxa => exact hs.stored hp hrxa b
  | raised hrxa => exact hs.withIdle hp hrxa true
  | idleStopped first he hrxa | tcStopped first he hrxa =>
    rw [hs.nextEvent_of_stopped hrxa] at he
    cases he
  | idleLatched _ _ hrxa herr =>
    exact (hs.withIdle hp hrxa false).withPhase hrxa ((phaseOk_tail (by rfl)).2 ⟨htxf, herr, hrxa, rfl⟩)
  | idleBehind _ _ hrxa => exact (hs.withIdle hp hrxa false).latched hrxa htxf hp
  | idleParse _ _ hrxa herr hcur => exact (hs.withIdle hp hrxa false).parseFrom htxf herr hrxa hcur rfl
  | tcActive _ _ hrxa => exact hs.latched hrxa htxf hp
  | registered _ _ hkey hfree => exact hs.registered hp hkey hfree
  | started => exact hs.of_restarted ⟨rfl, rfl, rfl, rfl, rfl, rfl⟩ rfl rfl rfl (phaseOk_of_rest hp htxf)
  | memChanged cells => exact hs.memChange cells

/-! ## Reset and every step -/

/-- Settles O41: nothing is stored, registered or received at reset. -/
theorem invariantHoldsAtReset : Obligations.InvariantHoldsAtReset := by
  unfold Obligations.InvariantHoldsAtReset
  exact {
    memWf := rfl
    memRange := List.forall_mem_nil _
    rxWf := rfl
    rxRange := List.forall_mem_nil _
    regCap := Nat.zero_le _
    keyCap := List.forall_mem_nil _
    curCap := Nat.zero_le _
    wpCap := Nat.zero_le _
    behind := fun _ _ => ⟨le_rfl, Nat.lt_of_lt_of_le (by decide) Config.rxCap_ge⟩
    stopped := fun _ => ⟨rfl, rfl, rfl, rfl, rfl, .inl rfl⟩
    phaseOk := phaseOk_of_rest rfl rfl }

/-- Settles O42: each point of an event step makes one of the changes above. -/
theorem everyStepKeepsTheInvariant : Obligations.EveryStepKeepsTheInvariant := by
  intro s t hs hstep
  cases step_cases hstep with
  | link wp i rest u hp hd hx he => exact hs.linkItem hp hd hx
  | needMore wp n hp hd =>
    obtain ⟨htxf, _, hrxa, _⟩ := (phaseOk_parse hp).1 hs.phaseOk
    exact (hs.withPhase hrxa (phaseOk_of_rest rfl htxf)).congr rfl
  | noMarker wp hp hb =>
    obtain ⟨htxf, _, hrxa, _⟩ := (phaseOk_tail hp).1 hs.phaseOk
    exact hs.withPhase hrxa (phaseOk_of_rest rfl htxf)
  | tailMarker | ack => exact hs.afterHandshake
  | micro body ctx u hp hx he => exact hs.micro hp he
  | call id body ctx hp => exact hs.callExternal hp
  | uplink r later ret ctx hp => exact hs.afterTransmit r.size r.data (.inr ⟨later, ret, rfl⟩)
  | returned ctx hp => exact hs.parserReturn (hp.imp_right fun hp => ⟨[], true, hp⟩)
  | agent input later hp hi =>
    have hlater : ({ s with inputs := later } : State).Inv := hs.congr rfl
    exact hlater.agent hp (agentStep_effect _ input)
  | quiet => exact hs

end Sys2Proof.Machine
end

section
/-! What a step leaves alone: reception stays active, what has been recorded only grows, and `RXBUF`, `MEM` and the
cursor change only where the spec says so (10_state.md R22, R26, R31 to R35). -/

namespace Sys2Proof.Machine

/-- A micro-instruction has replied, or it has left everything but `MEM` and what belongs to it alone. -/
theorem MicroEffect.sameButMem_or_replied {s u : State} (he : MicroEffect s u) :
    SameButMem s u ∨ ∃ a w size data, u = transmit (s.afterRead a w) size data := by
  cases he with
  | none | write => exact .inl rfl
  | read a w => exact .inr ⟨_, _, _, _, readAndReply_eq s (target a) w⟩
  | modify a f =>
    rw [readModifyWrite_eq]
    exact .inl rfl

/-! ## Reception stays active -/

theorem LinkEffect.rxa {s u : State} (he : LinkEffect s u) (hr : s.rxa = true) : u.rxa = true := by
  cases he with
  | marker => rfl
  | error | skip | invoke => exact hr

theorem MicroEffect.rxa {s u : State} (he : MicroEffect s u) (hr : s.rxa = true) : u.rxa = true := by
  rcases he.sameButMem_or_replied with h | ⟨a, w, size, data, rfl⟩
  · rw [h]
    exact hr
  · rfl

theorem AgentEffect.rxa {s t : State} {i : Input} (he : AgentEffect s i t) (hr : s.rxa = true) : t.rxa = true := by
  cases he with
  | started => rfl
  | _ => exact hr

/-- Both outcomes of step 10 and 11 leave everything but the cursor, `TXF`, the outcome and the phase alone. -/
theorem parserReturn_eq (s : State) (ctx : FrameCtx) :
    s.parserReturn ctx = { s with
      cur := if s.txf then s.cur else s.cur + ctx.total
      txf := false
      outcome := (s.parserReturn ctx).outcome
      phase := (s.parserReturn ctx).phase } := by
  cases htxf : s.txf
  · rw [parserReturn_of_silent htxf]
    simp [State.consumed, State.report, htxf]
  · rw [parserReturn_of_txf htxf]
    rfl

/-- Settles O45: the receive cycle is only ever started, also by a restart. -/
theorem receptionStaysActive : Obligations.ReceptionStaysActive := by
  intro s t hr hstep
  cases step_cases hstep with
  | link _ _ _ _ _ _ _ he => exact he.rxa hr
  | micro _ _ _ _ _ he => exact he.rxa hr
  | agent input later => exact (agentStep_effect { s with inputs := later } input).rxa hr
  | returned ctx =>
    rw [parserReturn_eq]
    exact hr
  | tailMarker | ack | uplink => rfl
  | needMore | noMarker | call | quiet => exact hr

/-! ## Outputs, records and the registry -/

/-- What has been sent, accessed, called and registered is the beginning of what there is now. -/
def Grown (s t : State) : Prop :=
  s.tx <+: t.tx ∧ s.memLog <+: t.memLog ∧ s.calls <+: t.calls ∧ s.reg <+: t.reg

theorem grown_of_eq {s t : State} (htx : t.tx = s.tx) (hlog : t.memLog = s.memLog) (hcalls : t.calls = s.calls)
    (hreg : t.reg = s.reg) : Grown s t := by
  simp [Grown, htx, hlog, hcalls, hreg]

theorem Grown.trans {s t u : State} (h : Grown s t) (h' : Grown t u) : Grown s u := by
  obtain ⟨htx, hlog, hcalls, hreg⟩ := h
  obtain ⟨htx', hlog', hcalls', hreg'⟩ := h'
  exact ⟨htx.trans htx', hlog.trans hlog', hcalls.trans hcalls', hreg.trans hreg'⟩

theorem grown_transmit (s : State) (size : Half) (data : List Byte) : Grown s (transmit s size data) :=
  ⟨List.prefix_append _ _, List.prefix_rfl, List.prefix_rfl, List.prefix_rfl⟩

theorem grown_handshake (s : State) : Grown s (handshake s) :=
  ⟨List.prefix_append _ _, List.prefix_rfl, List.prefix_rfl, List.prefix_rfl⟩

theorem grown_afterRead (s : State) (a : Word) (w : Width) : Grown s (s.afterRead a w) :=
  ⟨List.prefix_rfl, List.prefix_append _ _, List.prefix_rfl, List.prefix_rfl⟩

theorem grown_memWrite (s : State) (a : Word) (w : Width) (v : Word) : Grown s (memWrite s a w v) :=
  ⟨List.prefix_rfl, List.prefix_append _ _, List.prefix_rfl, List.prefix_rfl⟩

theorem LinkEffect.grown {s u : State} (he : LinkEffect s u) : Grown s u := by
  cases he with
  | marker => exact grown_handshake s
  | error | skip | invoke => exact grown_of_eq rfl rfl rfl rfl

theorem MicroEffect.grown {s u : State} (he : MicroEffect s u) : Grown s u := by
  cases he with
  | none => exact grown_of_eq rfl rfl rfl rfl
  | read a w =>
    rw [readAndReply_eq]
    exact (grown_afterRead s _ w).trans (grown_transmit _ _ _)
  | write a w v => exact grown_memWrite s _ w v
  | modify a f =>
    rw [readModifyWrite_eq]
    exact (grown_afterRead s _ _).trans (grown_memWrite _ _ _ _)

theorem AgentEffect.grown {s t : State} {i : Input} (he : AgentEffect s i t) : Grown s t := by
  cases he with
  | registered => exact ⟨List.prefix_rfl, List.prefix_rfl, List.prefix_rfl, List.prefix_append _ _⟩
  | _ => exact grown_of_eq rfl rfl rfl rfl

theorem grown_callExternal (s : State) (h : HandlerId) (body : List Byte) (ctx : FrameCtx) :
    Grown s (s.callExternal h body ctx) :=
  ⟨List.prefix_rfl, List.prefix_rfl, List.prefix_append _ _, List.prefix_rfl⟩

/-- Settles O47: every operation of a step appends to these lists, or leaves them. -/
theorem outputsAndRegistryOnlyGrow : Obligations.OutputsAndRegistryOnlyGrow := by
  intro s t hstep
  show Grown s t
  cases step_cases hstep with
  | link _ _ _ _ _ _ _ he => exact he.grown
  | micro _ _ _ _ _ he => exact he.grown
  | agent input later => exact (agentStep_effect { s with inputs := later } input).grown
  | call _ _ _ _ => exact grown_callExternal s _ _ _
  | uplink r => exact grown_transmit s r.size r.data
  | tailMarker | ack => exact grown_handshake s
  | returned ctx =>
    rw [parserReturn_eq]
    exact grown_of_eq rfl rfl rfl rfl
  | needMore | noMarker | quiet => exact grown_of_eq rfl rfl rfl rfl

/-! ## `RXBUF` -/

theorem LinkEffect.rxbuf {s u : State} (he : LinkEffect s u) : u.rxbuf = s.rxbuf := by cases he <;> rfl

theorem MicroEffect.rxbuf {s u : State} (he : MicroEffect s u) : u.rxbuf = s.rxbuf := by
  rcases he.sameButMem_or_replied with h | ⟨a, w, size, data, rfl⟩
  · rw [h]
  · rfl

/-- An act of another agent leaves `RXBUF` alone unless it is a byte that is stored. -/
theorem AgentEffect.rxbuf {s t : State} {i : Input} (he : AgentEffect s i t) :
    t.rxbuf = s.rxbuf ∨ s.rxa = true ∧ ∃ b, i = .byte b ∧ t.rxbuf = (s.storeRx b).rxbuf := by
  cases he with
  | stored b hr => exact .inr ⟨hr, b, rfl, rfl⟩
  | _ => exact .inl rfl

/-- Settles O49: only the agents write `RXBUF`, and of their acts only a byte that is stored. -/
theorem onlyByteArrivalWritesTheBuffer : Obligations.OnlyByteArrivalWritesTheBuffer := by
  intro s t hstep
  cases step_cases hstep with
  | link _ _ _ _ _ _ _ he => exact .inl he.rxbuf
  | micro _ _ _ _ _ he => exact .inl he.rxbuf
  | agent input later hp hi =>
    refine (agentStep_effect { s with inputs := later } input).rxbuf.imp_right ?_
    rintro ⟨hr, b, rfl, hbuf⟩
    refine ⟨hp, hr, b, by rw [hi]; rfl, fun i => ?_⟩
    rw [State.rxByte, hbuf]
    exact rxByte_storeRx { s with inputs := later } b i
  | returned ctx =>
    rw [parserReturn_eq]
    exact .inl rfl
  | needMore | noMarker | quiet | tailMarker | ack | uplink | call => exact .inl rfl

/-! ## `MEM` -/

/-- The block's own state that R35 sets apart from `MEM`. -/
def SameBlock (s t : State) : Prop :=
  t.cur = s.cur ∧ t.wp = s.wp ∧ t.err = s.err ∧ t.txf = s.txf ∧ t.rxa = s.rxa ∧
  t.idlePending = s.idlePending ∧ t.tcPending = s.tcPending ∧ t.reg = s.reg ∧ t.rxbuf = s.rxbuf ∧ t.tx = s.tx

theorem LinkEffect.mem {s u : State} (he : LinkEffect s u) : u.mem = s.mem := by cases he <;> rfl

theorem MicroEffect.mem {s u : State} (he : MicroEffect s u) : u.mem = s.mem ∨ SameBlock s u := by
  rcases he.sameButMem_or_replied with h | ⟨a, w, size, data, rfl⟩
  · rw [h]
    exact .inr ⟨rfl, rfl, rfl, rfl, rfl, rfl, rfl, rfl, rfl, rfl⟩
  · exact .inl rfl

theorem AgentEffect.mem {s t : State} {i : Input} (he : AgentEffect s i t) :
    t.mem = s.mem ∨ (∃ cells, i = .memWrite cells) ∧ SameBlock s t := by
  cases he with
  | memChanged cells => exact .inr ⟨⟨cells, rfl⟩, rfl, rfl, rfl, rfl, rfl, rfl, rfl, rfl, rfl, rfl⟩
  | _ => exact .inl rfl

/-- Settles O50: a handler that changes `MEM` has not replied, and a change by the environment touches nothing else. -/
theorem memAndTheBlockAreDisjoint : Obligations.MemAndTheBlockAreDisjoint := by
  intro s t hstep hmem
  show _ ∧ SameBlock s t
  cases step_cases hstep with
  | link _ _ _ _ _ _ _ he => exact absurd he.mem hmem
  | micro body ctx _ hp _ he => exact ⟨.inl ⟨_, _, _, hp⟩, he.mem.resolve_left hmem⟩
  | call id body ctx hp => exact ⟨.inl ⟨_, _, _, hp⟩, rfl, rfl, rfl, rfl, rfl, rfl, rfl, rfl, rfl, rfl⟩
  | agent input later hp hi =>
    obtain ⟨⟨cells, rfl⟩, hsame⟩ := (agentStep_effect { s with inputs := later } input).mem.resolve_left hmem
    exact ⟨.inr ⟨hp, cells, by rw [hi]; rfl⟩, hsame⟩
  | returned ctx =>
    rw [parserReturn_eq] at hmem
    exact (hmem rfl).elim
  | needMore | noMarker | quiet | tailMarker | ack | uplink => exact (hmem rfl).elim

/-! ## The cursor -/

theorem MicroEffect.cur {s u : State} (he : MicroEffect s u) : u.cur = s.cur ∨ u.cur = 0 := by
  rcases he.sameButMem_or_replied with h | ⟨a, w, size, data, rfl⟩
  · rw [h]
    exact .inl rfl
  · exact .inr rfl

theorem AgentEffect.cur {s t : State} {i : Input} (he : AgentEffect s i t) : t.cur = s.cur ∨ t.cur = 0 := by
  cases he with
  | started => exact .inr rfl
  | _ => exact .inl rfl

/-- Settles O51: only a skipped frame and a handler that returns in silence advance the cursor. -/
theorem cursorMovesByWholeFrames : Obligations.CursorMovesByWholeFrames := by
  intro s t hs hstep
  cases step_cases hstep with
  | link wp i rest u hp hd hx he =>
    rcases linkItem_cases hd hx with rfl | rfl | ⟨payload, crc, rfl, ⟨c, rfl⟩ | ⟨handler, body, rfl⟩⟩
    · exact .inr (.inl rfl)
    · exact .inl rfl
    · obtain ⟨_, _, _, hcur, hwp⟩ := (phaseOk_parse hp).1 hs.phaseOk
      obtain ⟨hmin, hlen⟩ := decodeLink_frame_length hd
      rw [rxBytes_length] at hlen
      refine .inr (.inr ⟨payload.length + 4, rfl, by omega, ?_, .inl ⟨wp, payload, crc, rest, hp, hd, rfl⟩⟩)
      rw [formatError_cur]
      omega
    · exact .inl rfl
  | micro _ _ _ _ _ he => exact he.cur.imp_right .inl
  | agent input later => exact (agentStep_effect { s with inputs := later } input).cur.imp_right .inl
  | returned ctx hp =>
    obtain ⟨_, _, ⟨htxf, _⟩ | ⟨htxf, hmin, hlen, hctx⟩⟩ :=
      (phaseOk_afterCall (hp.imp_right fun hp => ⟨[], true, hp⟩)).1 hs.phaseOk
    · rw [parserReturn_of_txf htxf]
      exact .inl rfl
    · rw [parserReturn_of_silent htxf]
      exact .inr (.inr ⟨ctx.total, rfl, hmin, hctx ▸ hlen, .inr ⟨ctx, hp, rfl⟩⟩)
  | tailMarker | ack | uplink => exact .inr (.inl rfl)
  | needMore | noMarker | call | quiet => exact .inl rfl

end Sys2Proof.Machine
end

section
/-! The agents' acts and the values at reset, as 10_state.md gives them (R43 to R45, R48). -/

namespace Sys2Proof.Machine

/-- Settles O40: every value is the one `State.reset` lists. -/
theorem resetLeavesTheBlockStopped : Obligations.ResetLeavesTheBlockStopped :=
  ⟨rfl, rfl, rfl, rfl, rfl, rfl, rfl, rfl, rfl, rfl⟩

/-- Settles O31: `RXA` decides whether the event is raised. -/
theorem idleEventIsRaisedOrDropped : Obligations.IdleEventIsRaisedOrDropped := by
  intro s later hp hi
  rw [step_agent hp hi, State.agentStep]
  constructor
  · intro hr
    rw [raiseIdle_active { s with inputs := later } hr]
  · intro hr
    rw [raiseIdle_stopped { s with inputs := later } hr]

/-- Settles O30: the write position of R43 is `State.storeAt`. -/
theorem byteArrivalFillsTheBuffer : Obligations.ByteArrivalFillsTheBuffer := by
  intro s b later hp hi
  rw [step_agent hp hi, State.agentStep]
  constructor
  · intro hr
    rw [byteArrives_stopped { s with inputs := later } b hr]
  · intro hr p hpos
    have hat : p = ({ s with inputs := later } : State).storeAt := hpos
    subst hat
    rw [byteArrives_active { s with inputs := later } b hr]
    exact ⟨_, rfl, rxByte_storeRx _ b, rfl⟩

/-- With both events pending, the transfer-complete event is handled where the fill has wrapped or it is asked for. -/
theorem serve_both_transferComplete (s : State) {first : Event} (hidle : s.idlePending = true)
    (htc : s.tcPending = true) (h : s.wp ≠ Config.rxCap ∨ first = .transferComplete) :
    s.serve first = s.handleEvent .transferComplete := by
  refine serve_some s first _ ?_
  rw [nextEvent_both s first hidle htc]
  rcases h with hwrapped | rfl
  · rw [if_neg hwrapped]
  · rw [ite_self]

/-- With both events pending and a full buffer, the event asked for is handled. -/
theorem serve_both_full (s : State) (first : Event) (hidle : s.idlePending = true) (htc : s.tcPending = true)
    (hfull : s.wp = Config.rxCap) : s.serve first = s.handleEvent first := by
  refine serve_some s first _ ?_
  rw [nextEvent_both s first hidle htc, if_pos hfull]

/-- Settles O36: with both events pending the fill position says whether there is a choice. -/
theorem eventOrderAtAFullBuffer : Obligations.EventOrderAtAFullBuffer := by
  intro s first later hp hi hidle htc hr
  rw [step_agent hp hi, State.agentStep]
  refine ⟨fun horder => ?_, fun hfull hfirst herr => ?_, fun hfull hfirst herr hcur => ?_⟩
  · rw [serve_both_transferComplete { s with inputs := later } hidle htc horder,
      handleTc_active { s with inputs := later } hr]
  · rw [hfirst, serve_both_full { s with inputs := later } .idle hidle htc hfull,
      handleIdle_latched { s with inputs := later } hr herr]
  · rw [hfirst, serve_both_full { s with inputs := later } .idle hidle htc hfull,
      handleIdle_parse { s with inputs := later } hr herr hcur]

end Sys2Proof.Machine
end

section
/-! Reads and writes of `MEM` byte by byte, and the accesses a step makes (20_memory.md R52 to R57, R62, R64). -/

namespace Sys2Proof.Machine

/-! ## Values cut to a width -/

/-- The bits of a word that an access of this width reaches. -/
def Width.mask : Width → Word
  | .byte => 0xFF
  | .half => 0xFFFF
  | .word => 0xFFFFFFFF

theorem mask_bytes (w : Width) {k : Nat} (hk : k < 4) :
    w.mask.extractLsb' (8 * k) 8 = if k < w.bytes then BitVec.allOnes 8 else 0 := by
  cases w <;> interval_cases k <;> decide

theorem not_mask_bytes (w : Width) {k : Nat} (hk : k < 4) :
    (~~~w.mask).extractLsb' (8 * k) 8 = if k < w.bytes then 0 else BitVec.allOnes 8 := by
  cases w <;> interval_cases k <;> decide

theorem truncTo_eq_and_mask (w : Width) (v : Word) : truncTo w v = v &&& w.mask := by
  cases w with
  | byte => exact (BitVec.setWidth_eq_append (by decide)).trans (BitVec.and_setWidth_allOnes 24 8 v).symm
  | half => exact (BitVec.setWidth_eq_append (by decide)).trans (BitVec.and_setWidth_allOnes 16 16 v).symm
  | word => exact BitVec.and_allOnes.symm

theorem truncTo_bytes (w : Width) (v : Word) {k : Nat} (hk : k < 4) :
    (truncTo w v).extractLsb' (8 * k) 8 = if k < w.bytes then v.extractLsb' (8 * k) 8 else 0 := by
  rw [truncTo_eq_and_mask, BitVec.extractLsb'_and, mask_bytes w hk]
  split
  · exact BitVec.and_allOnes
  · exact BitVec.and_zero

/-! ## Reads -/

/-- Where the environment gives no answer, byte `k` of the value read is byte `k` of the contents. -/
theorem readValue_contents_bytes {s : State} (a : Word) (w : Width)
    (h : s.reads.head? = none ∨ s.reads.head? = some none) {k : Nat} (hk : k < 4) :
    (s.readValue a w).extractLsb' (8 * k) 8 = if k < w.bytes then s.memByte (a.toNat + k) else 0 := by
  rw [readValue_contents s a w h, le32_byte _ k hk, List.getD_eq_getElem?_getD]
  split
  case isTrue hlt => rw [memBytes_getElem? s _ _ k hlt, Option.getD_some]
  case isFalse hge => simp [State.memBytes, hge]

/-- Settles O22: an answer is cut to the width, and the contents are exactly the width's bytes. -/
theorem readValueIsTheAnswerOrTheContents : Obligations.ReadValueIsTheAnswerOrTheContents := by
  intro s a w k hk
  constructor
  · intro v later hanswer
    rw [readValue_answer s a w v later hanswer, truncTo_bytes w v hk]
  · intro hcontents
    exact readValue_contents_bytes a w hcontents hk

/-- A narrow read of the contents is the wide one cut to its width. -/
theorem readValue_eq_truncTo_word {s : State} (a : Word) (w : Width)
    (h : s.reads.head? = none ∨ s.reads.head? = some none) : s.readValue a w = truncTo w (s.readValue a .word) := by
  refine word_ext fun k hk => ?_
  rw [truncTo_bytes w _ hk, readValue_contents_bytes a w h hk, readValue_contents_bytes a .word h hk,
    if_pos (c := k < Width.word.bytes) hk]

/-! ## Writes -/

/-- A write replaces the bits of the word its width reaches, and keeps those above. -/
theorem memWord_memWrite (s : State) (a : Word) (w : Width) (v : Word) :
    (memWrite s a w v).memWord a.toNat = (s.memWord a.toNat &&& ~~~w.mask) ||| truncTo w v := by
  refine word_ext fun k hk => ?_
  rw [memWord_bytes _ _ k hk, BitVec.extractLsb'_or, BitVec.extractLsb'_and, memWord_bytes _ _ k hk,
    not_mask_bytes w hk, truncTo_bytes w v hk]
  by_cases hin : k < w.bytes
  · rw [memByte_memWrite_inside s a w v k hin, if_pos hin, if_pos hin]
    simp
  · rw [memByte_memWrite_outside s a w v _ (.inr (by omega)), if_neg hin, if_neg hin, BitVec.and_allOnes]
    exact BitVec.or_zero.symm

/-- Settles O23: reads and writes of one width differ from those of a word by the width's mask. -/
theorem targetMemoryIsLittleEndian : Obligations.TargetMemoryIsLittleEndian := by
  intro s a ha
  have htarget : target a = a := maskAddr_of_aligned a ha
  refine ⟨fun h => ⟨?_, ?_⟩, fun v => ⟨memWrite s (target a) .byte (zext8 v), rfl, ?_⟩,
    fun v => ⟨memWrite s (target a) .half (zext16 v), rfl, ?_⟩⟩
  · rw [readValue_eq_truncTo_word a .byte h, truncTo_eq_and_mask, Width.mask]
  · rw [readValue_eq_truncTo_word a .half h, truncTo_eq_and_mask, Width.mask]
  · have hcut : truncTo .byte (zext8 v) = v.zeroExtend 32 := by simp [truncTo, zext8]
    rw [htarget, memWord_memWrite, hcut]
    rfl
  · have hcut : truncTo .half (zext16 v) = v.zeroExtend 32 := by simp [truncTo, zext16]
    rw [htarget, memWord_memWrite, hcut]
    rfl

/-- The word written is the value read back where the environment gives no answer. -/
theorem readValue_memWrite_word {s : State} (a v : Word) (h : s.reads.head? = none ∨ s.reads.head? = some none) :
    (memWrite s a .word v).readValue a .word = v :=
  (readValue_contents (memWrite s a .word v) a .word h).trans (memWord_write s a v)

/-- Settles O29: the reply carries the value read, which is the word the write stored. -/
theorem wordWrittenIsReadBack : Obligations.WordWrittenIsReadBack := by
  intro addr v s h
  refine ⟨memWrite s (target addr) .word v, readAndReply (memWrite s (target addr) .word v) (target addr) .word,
    rfl, rfl, ?_⟩
  rw [readAndReply_eq, readValue_memWrite_word (target addr) v h, transmit_eq _ _ _ (bytesLe_length v 4)]
  rfl

/-! ## The accesses of one step -/

/-- The accesses made since are none, one, or a read and a write of one word, at aligned addresses (R54, R57). -/
def AccessedAsDeclared (s t : State) : Prop :=
  ∃ new, t.memLog = s.memLog ++ new ∧ (∀ a ∈ new, a.addr &&& 3 = 0) ∧
    (new = [] ∨ (∃ a, new = [a]) ∨
      ∃ addr v w, new = [⟨.read, addr, .word, v⟩, ⟨.write, addr, .word, w⟩])

theorem accessedAsDeclared_of_eq {s t : State} (h : t.memLog = s.memLog) : AccessedAsDeclared s t :=
  ⟨[], by rw [h, List.append_nil], List.forall_mem_nil _, .inl rfl⟩

theorem accessedAsDeclared_of_append_one {s t : State} (a : Access) (ha : a.addr &&& 3 = 0)
    (h : t.memLog = s.memLog ++ [a]) : AccessedAsDeclared s t :=
  ⟨[a], h, List.forall_mem_singleton.2 ha, .inr (.inl ⟨a, rfl⟩)⟩

theorem target_aligned (addr : Word) : target addr &&& 3 = 0 := (aligned_bound addr).2

theorem MicroEffect.accessedAsDeclared {s u : State} (he : MicroEffect s u) : AccessedAsDeclared s u := by
  cases he with
  | none => exact accessedAsDeclared_of_eq rfl
  | read a w =>
    exact accessedAsDeclared_of_append_one ⟨.read, target a, w, s.readValue (target a) w⟩ (target_aligned a) rfl
  | write a w v => exact accessedAsDeclared_of_append_one ⟨.write, target a, w, v⟩ (target_aligned a) rfl
  | modify a f =>
    rw [rmw_eq]
    have haligned := target_aligned a
    exact ⟨_, rfl, List.forall_mem_cons.2 ⟨haligned, List.forall_mem_singleton.2 haligned⟩, .inr (.inr ⟨_, _, _, rfl⟩)⟩

theorem LinkEffect.memLog {s u : State} (he : LinkEffect s u) : u.memLog = s.memLog := by cases he <;> rfl

theorem AgentEffect.memLog {s t : State} {i : Input} (he : AgentEffect s i t) : t.memLog = s.memLog := by
  cases he <;> rfl

/-- Settles O48: only a micro-instruction accesses `MEM`, and always at a masked address. -/
theorem accessesAreAlignedAndAsDeclared : Obligations.AccessesAreAlignedAndAsDeclared := by
  intro s t hstep
  show AccessedAsDeclared s t
  cases step_cases hstep with
  | micro _ _ _ _ _ he => exact he.accessedAsDeclared
  | link _ _ _ _ _ _ _ he => exact accessedAsDeclared_of_eq he.memLog
  | agent input later => exact accessedAsDeclared_of_eq (agentStep_effect { s with inputs := later } input).memLog
  | returned ctx =>
    rw [parserReturn_eq]
    exact accessedAsDeclared_of_eq rfl
  | needMore | noMarker | tailMarker | call | uplink | ack | quiet => exact accessedAsDeclared_of_eq rfl

end Sys2Proof.Machine
end

section
/-! Link items and uplink items: what the decoder of the level reads from the encoder's bytes, and the bytes a decoded
link item stands for (30_encoding.md R71 to R82, R89). -/

namespace Sys2Proof.Machine

/-! ## The link level -/

theorem size_complete {w : Nat} (v : BitVec w) (rest : List Byte) : ¬ (bytesLe v 2 ++ rest).length < 2 := by
  rw [List.length_append, bytesLe_length]
  omega

theorem envelope_complete (size : Half) (data : List Byte) (crc : Half) (rest : List Byte) :
    ¬ (envelope size data crc ++ rest).length < data.length + 4 := by simp

theorem envelope_size_complete (size : Half) (data : List Byte) (crc : Half) (rest : List Byte) :
    ¬ (envelope size data crc ++ rest).length < 2 :=
  envelope_append size data crc rest ▸ size_complete size _

theorem decodeLink_marker (rest : List Byte) : decodeLink (encode .sync ++ rest) = .instr .sync rest := by
  simp only [decodeLink, encode, size_complete, if_false, le16_bytesLe, if_true, drop_bytesLe]

theorem decodeLink_illegalSize {size : Half} (h : size.toNat < Config.sizeMin) (rest : List Byte) :
    decodeLink (encode (.illegalSize size) ++ rest) = .instr (.illegalSize size) rest := by
  have hne : size ≠ Config.syncMarker := by
    rintro rfl
    exact absurd h (by decide)
  simp only [decodeLink, encode, size_complete, le16_bytesLe, hne, if_false, h, if_true, drop_bytesLe]

theorem decodeLink_frame {payload : List Byte} (h : legalSize payload.length = true) (crc : Half) (rest : List Byte) :
    decodeLink (encode (.frame payload crc) ++ rest) = .instr (.frame payload crc) rest := by
  obtain ⟨hsize, hmarker⟩ := ofNat_of_legal h
  have hmin : ¬ payload.length < Config.sizeMin := Nat.not_lt.2 ((legalSize_iff _).1 h).1
  simp only [decodeLink, encode, envelope_size_complete, le16_envelope, hsize, hmarker, hmin, envelope_complete,
    if_false, data_envelope, crc_envelope, rest_envelope]

/-- The first bytes of an item are its size field, payload and CRC field (R71). -/
theorem envelope_of_bytes {b : List Byte} (h : (le16 b 0).toNat + 4 ≤ b.length) :
    envelope (le16 b 0) ((b.drop 2).take (le16 b 0).toNat) (le16 b (2 + (le16 b 0).toNat)) ++
      b.drop ((le16 b 0).toNat + 4) = b := by
  have hcrc := drop_two b (2 + (le16 b 0).toNat) (by omega)
  rw [show 2 + (le16 b 0).toNat + 2 = (le16 b 0).toNat + 4 by omega, ← List.drop_drop] at hcrc
  rw [envelope_append, ← hcrc, List.take_append_drop, ← bytes_le16 b (by omega)]

/-- Settles O3: each answer of the link decoder is a well-formed item, and its bytes are those it was read from. -/
theorem linkItemIsTheBytesAtTheFront : Obligations.LinkItemIsTheBytesAtTheFront := by
  intro b rest i hd
  rw [decode] at hd
  rcases decodeLink_cases b with ⟨_, h⟩ | ⟨hb, hsync, h⟩ | ⟨hb, hsize, h⟩ | ⟨_, _, _, h⟩ | ⟨hlegal, hb, h⟩ <;>
    rw [hd] at h <;> cases h
  · refine ⟨rfl, rfl, ?_⟩
    rw [encode, ← hsync, ← bytes_le16 b hb]
  · exact ⟨decide_eq_true hsize, rfl, (bytes_le16 b hb).symm⟩
  · have hlen : ((b.drop 2).take (le16 b 0).toNat).length = (le16 b 0).toNat := by
      rw [List.length_take, List.length_drop]
      omega
    refine ⟨?_, rfl, ?_⟩
    · rw [Instr.wf, hlen, hlegal]
    · rw [encode, hlen, BitVec.ofNat_toNat, BitVec.setWidth_eq, envelope_of_bytes hb]

/-! ## The uplink (log entry 18) -/

theorem decodeUplink_envelope {size : Half} {data : List Byte} (h : data.length = size.toNat) (crc : Half)
    (rest : List Byte) :
    decodeUplink (envelope size data crc ++ rest) =
      if data = Config.ackData then .instr .ack rest else .instr (.reply size data) rest := by
  simp only [decodeUplink, le16_envelope, ← h, envelope_size_complete, envelope_complete, if_false, data_envelope,
    rest_envelope]

theorem decodeUplink_ack (rest : List Byte) : decodeUplink (encode .ack ++ rest) = .instr .ack rest := by
  rw [encode, decodeUplink_envelope rfl, if_pos rfl]

/-- A reply has the bytes of the acknowledgement exactly where it has its data. -/
theorem encode_reply_eq_ack_iff {size : Half} {data : List Byte} (h : data.length = size.toNat) :
    encode (.reply size data) = encode .ack ↔ data = Config.ackData := by
  constructor
  · intro he
    have hd := decodeUplink_envelope h (Config.crc16 data) []
    rw [← encode, he, decodeUplink_ack] at hd
    split at hd
    · assumption
    · cases hd
  · rintro rfl
    have hsize : size = 2 := BitVec.eq_of_toNat_eq h.symm
    rw [encode, encode, hsize]

theorem decodeUplink_reply {size : Half} {data : List Byte} (h : data.length = size.toNat)
    (hne : encode (.reply size data) ≠ encode .ack) (rest : List Byte) :
    decodeUplink (encode (.reply size data) ++ rest) = .instr (.reply size data) rest := by
  rw [encode, decodeUplink_envelope h, if_neg (mt (encode_reply_eq_ack_iff h).2 hne)]

end Sys2Proof.Machine
end

section
/-! Micro-instructions: the classes of a body, and the bodies of a class (30_encoding.md R83 to R88). -/

namespace Sys2Proof.Machine

/-! ## Length, operation id and target address of a body -/

/-- The body has this length, this operation id and this target address (R83, R84). -/
structure HasHead (b : List Byte) (len : Nat) (op : BitVec 2) (addr : Word) : Prop where
  length : b.length = len
  op : opField (le32 b 0) = op
  addr : maskAddr (le32 b 0) = addr

/-- An address word and its operands, as the encoder writes them. -/
theorem hasHead_addrWord {addr : Word} (op : BitVec 2) (h : alignedAddr addr = true) (operands : List Byte) :
    HasHead (addrWord addr (op.zeroExtend 32) ++ operands) (4 + operands.length) op addr where
  length := by simp [addrWord]
  op := by rw [addrWord, le32_bytesLe, opField_addrWord op h]
  addr := by rw [addrWord, le32_bytesLe, maskAddr_addrWord op h]

theorem hasHead_addrWord_only {addr : Word} (op : BitVec 2) (h : alignedAddr addr = true) :
    HasHead (addrWord addr (op.zeroExtend 32)) 4 op addr := by
  simpa only [List.append_nil, List.length_nil] using hasHead_addrWord op h []

theorem HasHead.aligned {b : List Byte} {len : Nat} {op : BitVec 2} {addr : Word} (h : HasHead b len op addr) :
    alignedAddr addr = true :=
  h.addr ▸ alignedAddr_maskAddr _

/-- The address word and the operands are the whole body: no bit is lost (R83). -/
theorem HasHead.bytes {b : List Byte} {len : Nat} {op : BitVec 2} {addr : Word} (h : HasHead b len op addr)
    (hlen : 4 ≤ len) : addrWord addr (op.zeroExtend 32) ++ b.drop 4 = b := by
  rw [addrWord, ← h.op, ← h.addr, addrWord_fields, ← bytes_le32 b (h.length ▸ hlen)]

/-- The dispatch key tells every pair of length and operation id apart (R84). -/
theorem dispatchKey_inj {m n : Nat} {p q : BitVec 2} (h : dispatchKey m p = dispatchKey n q) : m = n ∧ p = q := by
  have hp := p.isLt
  have hq := q.isLt
  unfold dispatchKey at h
  exact ⟨by omega, BitVec.eq_of_toNat_eq (by omega)⟩

theorem hasHead_of_dispatchKey {b : List Byte} {len : Nat} {op : BitVec 2}
    (h : dispatchKey b.length (opField (le32 b 0)) = dispatchKey len op) :
    HasHead b len op (maskAddr (le32 b 0)) :=
  ⟨(dispatchKey_inj h).1, (dispatchKey_inj h).2, rfl⟩

/-- R88 in the words of the decoder's fields. -/
theorem isNopBody_iff (b : List Byte) :
    isNopBody b = true ↔ b.length < 4 ∨ (b.length, (opField (le32 b 0)).toNat) ∉ definedClasses := by
  rw [isNopBody, opField_eq_mod]
  simp

theorem HasHead.not_nop {b : List Byte} {len : Nat} {op : BitVec 2} {addr : Word} (h : HasHead b len op addr)
    (hlen : 4 ≤ len) (hdef : (len, op.toNat) ∈ definedClasses) : ¬ isNopBody b = true := by
  rw [isNopBody_iff, h.length, h.op]
  exact fun hn => hn.elim (Nat.not_lt.2 hlen) fun hn => hn hdef

/-- A body of no listed dispatch key is a no-op body. -/
theorem isNopBody_of_dispatchKey {b : List Byte}
    (h : dispatchKey b.length (opField (le32 b 0)) ∉ definedClasses.map fun c => c.1 * 4 + c.2) :
    isNopBody b = true :=
  (isNopBody_iff b).2 (.inr fun hmem => h (List.mem_map_of_mem hmem))

/-! ## The class of a body -/

/-- The instruction a body stands for, by its length, operation id and operands (R86, R87). -/
inductive BodyClass (b : List Byte) : Instr → Prop
  | rd32 {addr : Word} (h : HasHead b 4 0 addr) : BodyClass b (.rd32 addr)
  | rd8 {addr : Word} (h : HasHead b 4 1 addr) : BodyClass b (.rd8 addr)
  | rd16 {addr : Word} (h : HasHead b 4 2 addr) : BodyClass b (.rd16 addr)
  | setb {addr : Word} {v : Byte} (h : HasHead b 5 0 addr) (hv : b.getD 4 0 = v) : BodyClass b (.setb addr v)
  | wr8 {addr : Word} {v : Byte} (h : HasHead b 5 1 addr) (hv : b.getD 4 0 = v) : BodyClass b (.wr8 addr v)
  | clrb {addr : Word} {v : Byte} (h : HasHead b 5 2 addr) (hv : b.getD 4 0 = v) : BodyClass b (.clrb addr v)
  | wr16 {addr : Word} {v : Half} (h : HasHead b 6 0 addr) (hv : le16 b 4 = v) : BodyClass b (.wr16 addr v)
  | wr32 {addr v : Word} (h : HasHead b 8 0 addr) (hv : le32 b 4 = v) : BodyClass b (.wr32 addr v)
  | or32 {addr v : Word} (h : HasHead b 8 1 addr) (hv : le32 b 4 = v) : BodyClass b (.or32 addr v)
  | and32 {addr v : Word} (h : HasHead b 8 2 addr) (hv : le32 b 4 = v) : BodyClass b (.and32 addr v)
  | mod32 {addr m v : Word} (h : HasHead b 12 0 addr) (hm : le32 b 4 = m) (hv : le32 b 8 = v) :
      BodyClass b (.mod32 addr m v)
  | nop (h : isNopBody b = true) : BodyClass b (.nop b)

/-- The decoder answers the class of the body. -/
theorem bodyClass_decodeBody (b : List Byte) : BodyClass b (decodeBody b) := by
  unfold decodeBody
  split
  · next hlen => exact .nop ((isNopBody_iff b).2 (.inl hlen))
  simp only
  split
  case h_1 hkey => exact .rd32 (hasHead_of_dispatchKey hkey)
  case h_2 hkey => exact .rd8 (hasHead_of_dispatchKey hkey)
  case h_3 hkey => exact .rd16 (hasHead_of_dispatchKey hkey)
  case h_4 hkey => exact .setb (hasHead_of_dispatchKey hkey) rfl
  case h_5 hkey => exact .wr8 (hasHead_of_dispatchKey hkey) rfl
  case h_6 hkey => exact .clrb (hasHead_of_dispatchKey hkey) rfl
  case h_7 hkey => exact .wr16 (hasHead_of_dispatchKey hkey) rfl
  case h_8 hkey => exact .wr32 (hasHead_of_dispatchKey hkey) rfl
  case h_9 hkey => exact .or32 (hasHead_of_dispatchKey hkey) rfl
  case h_10 hkey => exact .and32 (hasHead_of_dispatchKey hkey) rfl
  case h_11 hkey => exact .mod32 (hasHead_of_dispatchKey hkey) rfl rfl
  case h_12 =>
    refine .nop (isNopBody_of_dispatchKey ?_)
    simp_all [definedClasses]

theorem decodeBody_of_isNopBody {b : List Byte} (h : isNopBody b = true) : decodeBody b = .nop b := by
  generalize hi : decodeBody b = i
  cases hi ▸ bodyClass_decodeBody b with
  | nop => rfl
  | rd32 hh | rd8 hh | rd16 hh | setb hh | wr8 hh | clrb hh | wr16 hh | wr32 hh | or32 hh | and32 hh | mod32 hh =>
    exact absurd h (hh.not_nop (by decide) (by decide))

/-- A body is of one class only: its class is what the decoder answers. -/
theorem BodyClass.decodeBody_eq {b : List Byte} {i : Instr} (h : BodyClass b i) : decodeBody b = i := by
  cases h with
  | nop h => exact decodeBody_of_isNopBody h
  | rd32 h | rd8 h | rd16 h =>
    simp only [decodeBody, dispatchKey, h.length, h.op, h.addr]
    rfl
  | setb h hv | wr8 h hv | clrb h hv | wr16 h hv | wr32 h hv | or32 h hv | and32 h hv =>
    simp only [decodeBody, dispatchKey, h.length, h.op, h.addr, hv]
    rfl
  | mod32 h hm hv =>
    simp only [decodeBody, dispatchKey, h.length, h.op, h.addr, hm, hv]
    rfl

/-- Settles O4: the decoder answers `NOP` for the bodies `isNopBody` accepts. -/
theorem nopIsEveryUnlistedPair : Obligations.NopIsEveryUnlistedPair := by
  intro b
  refine Iff.trans ⟨fun hd => ?_, decodeBody_of_isNopBody⟩ (isNopBody_iff b)
  cases hd ▸ bodyClass_decodeBody b with
  | nop h => exact h

/-! ## From a body to its instruction and back -/

/-! The body put together again from its head and the operands behind it, one lemma for each shape of operands. -/

theorem HasHead.bytes_none {b : List Byte} {op : BitVec 2} {addr : Word} (h : HasHead b 4 op addr) :
    addrWord addr (op.zeroExtend 32) = b := by
  have hb := h.bytes (Nat.le_refl 4)
  rwa [List.drop_of_length_le (Nat.le_of_eq h.length), List.append_nil] at hb

theorem HasHead.bytes_byte {b : List Byte} {op : BitVec 2} {addr : Word} (h : HasHead b 5 op addr) :
    addrWord addr (op.zeroExtend 32) ++ [b.getD 4 0] = b := by
  rw [← drop_one b 4 h.length, h.bytes (by decide)]

theorem HasHead.bytes_half {b : List Byte} {op : BitVec 2} {addr : Word} (h : HasHead b 6 op addr) :
    addrWord addr (op.zeroExtend 32) ++ bytesLe (le16 b 4) 2 = b := by
  have hv := drop_two b 4 (Nat.le_of_eq h.length.symm)
  rw [List.drop_of_length_le (Nat.le_of_eq h.length), List.append_nil] at hv
  rw [← hv, h.bytes (by decide)]

theorem HasHead.bytes_word {b : List Byte} {op : BitVec 2} {addr : Word} (h : HasHead b 8 op addr) :
    addrWord addr (op.zeroExtend 32) ++ bytesLe (le32 b 4) 4 = b := by
  have hv := drop_four b 4 (Nat.le_of_eq h.length.symm)
  rw [List.drop_of_length_le (Nat.le_of_eq h.length), List.append_nil] at hv
  rw [← hv, h.bytes (by decide)]

theorem HasHead.bytes_words {b : List Byte} {op : BitVec 2} {addr : Word} (h : HasHead b 12 op addr) :
    addrWord addr (op.zeroExtend 32) ++ bytesLe (le32 b 4) 4 ++ bytesLe (le32 b 8) 4 = b := by
  have hm := drop_four b 4 (by rw [h.length]; decide)
  have hv := drop_four b 8 (Nat.le_of_eq h.length.symm)
  rw [List.drop_of_length_le (Nat.le_of_eq h.length), List.append_nil] at hv
  rw [List.append_assoc, ← hv, ← hm, h.bytes (by decide)]

theorem BodyClass.encode_eq {b : List Byte} {i : Instr} (h : BodyClass b i) : encode i = b := by
  cases h with
  | nop => rfl
  | rd32 h | rd8 h | rd16 h => exact h.bytes_none
  | setb h hv | wr8 h hv | clrb h hv => exact hv ▸ h.bytes_byte
  | wr16 h hv => exact hv ▸ h.bytes_half
  | wr32 h hv | or32 h hv | and32 h hv => exact hv ▸ h.bytes_word
  | mod32 h hm hv => exact hm ▸ hv ▸ h.bytes_words

theorem BodyClass.wf {b : List Byte} {i : Instr} (h : BodyClass b i) (hlen : b.length ≤ maxBody) : i.wf = true := by
  cases h with
  | nop h => simp [Instr.wf, h, hlen]
  | rd32 h | rd8 h | rd16 h | setb h | wr8 h | clrb h | wr16 h | wr32 h | or32 h | and32 h | mod32 h =>
    exact h.aligned

/-- Settles O2: each class has an aligned address and is encoded in the bytes of the body. -/
theorem everyBodyIsAMicroInstruction : Obligations.EveryBodyIsAMicroInstruction := fun b hlen =>
  ⟨(bodyClass_decodeBody b).wf hlen, decodeBody_level b, (bodyClass_decodeBody b).encode_eq⟩

/-! The operands stand behind the address word (R87). -/

theorem byte_operand (addr op : Word) (v : Byte) : (addrWord addr op ++ [v]).getD 4 0 = v := by
  rw [List.getD_append_right _ _ _ _ (by simp)]
  simp

theorem half_operand (addr op : Word) (v : Half) : le16 (addrWord addr op ++ bytesLe v 2) 4 = v := by
  rw [le16_append_right _ _ 4 0 (by simp), ← List.append_nil (bytesLe v 2), le16_bytesLe]

theorem word_operand (addr op v : Word) : le32 (addrWord addr op ++ bytesLe v 4) 4 = v := by
  rw [le32_append_right _ _ 4 0 (by simp), ← List.append_nil (bytesLe v 4), le32_bytesLe]

theorem mask_operand (addr op m v : Word) : le32 (addrWord addr op ++ (bytesLe m 4 ++ bytesLe v 4)) 4 = m := by
  rw [le32_append_right _ _ 4 0 (by simp), le32_bytesLe]

theorem value_operand (addr op m v : Word) : le32 (addrWord addr op ++ (bytesLe m 4 ++ bytesLe v 4)) 8 = v := by
  rw [← List.append_assoc, le32_append_right _ _ 8 0 (by simp), ← List.append_nil (bytesLe v 4), le32_bytesLe]

/-- The encoder writes a body of the instruction's class. -/
theorem bodyClass_encode {i : Instr} (hl : i.level = .body) (h : i.wf = true) : BodyClass (encode i) i := by
  cases i with
  | rd32 addr => exact .rd32 (hasHead_addrWord_only 0 h)
  | rd8 addr => exact .rd8 (hasHead_addrWord_only 1 h)
  | rd16 addr => exact .rd16 (hasHead_addrWord_only 2 h)
  | setb addr v => exact .setb (hasHead_addrWord 0 h [v]) (byte_operand addr 0 v)
  | wr8 addr v => exact .wr8 (hasHead_addrWord 1 h [v]) (byte_operand addr 1 v)
  | clrb addr v => exact .clrb (hasHead_addrWord 2 h [v]) (byte_operand addr 2 v)
  | wr16 addr v => exact .wr16 (hasHead_addrWord 0 h (bytesLe v 2)) (half_operand addr 0 v)
  | wr32 addr v => exact .wr32 (hasHead_addrWord 0 h (bytesLe v 4)) (word_operand addr 0 v)
  | or32 addr v => exact .or32 (hasHead_addrWord 1 h (bytesLe v 4)) (word_operand addr 1 v)
  | and32 addr v => exact .and32 (hasHead_addrWord 2 h (bytesLe v 4)) (word_operand addr 2 v)
  | mod32 addr m v =>
    have hbytes : encode (.mod32 addr m v) = addrWord addr 0 ++ (bytesLe m 4 ++ bytesLe v 4) := List.append_assoc _ _ _
    rw [hbytes]
    exact .mod32 (hasHead_addrWord 0 h _) (mask_operand addr 0 m v) (value_operand addr 0 m v)
  | nop body => exact .nop (Bool.and_eq_true_iff.1 h).1
  | frame | sync | sync4 | illegalSize | ack | reply => cases hl

end Sys2Proof.Machine
end

section
/-! Decode after encode at every level, and the words the spec writes out (30_encoding.md R71 to R93,
95_test_vectors.md). -/

namespace Sys2Proof.Machine

/-- Settles O1: the decoder of each level, on the bytes the encoder writes for it. -/
theorem decodeOfEncodeIsTheInstruction : Obligations.DecodeOfEncodeIsTheInstruction := by
  intro i rest h
  have hbody : i.level = .body → decode .body (encode i) = .instr i [] := fun hl => by
    rw [decode, (bodyClass_encode hl h).decodeBody_eq]
  cases i with
  | frame payload crc => exact decodeLink_frame h crc rest
  | sync => exact decodeLink_marker rest
  | sync4 => rfl
  | illegalSize size => exact decodeLink_illegalSize (of_decide_eq_true h) rest
  | ack => exact ⟨fun _ => decodeUplink_ack rest, fun _ => decodeUplink_ack rest⟩
  | reply size data =>
    have hlen : data.length = size.toNat := eq_of_beq h
    refine ⟨fun hne => decodeUplink_reply hlen (hne.resolve_left nofun) rest, fun he => ?_⟩
    rw [he]
    exact decodeUplink_ack rest
  | _ => exact hbody rfl

/-- Settles O5, by running the decoders on the nine words. -/
theorem wordsOfTheSpecDecode : Obligations.WordsOfTheSpecDecode := by
  unfold Obligations.WordsOfTheSpecDecode
  decide

end Sys2Proof.Machine
end

section
/-! Fetch: the placed table word is what is found there, and a step runs what is found (30_encoding.md R70, R86;
40_receive_intake.md R102, R103; log entries 7, 12 and 13). -/

namespace Sys2Proof.Machine

/-! ## The bytes placed at each fetch point -/

theorem fetch_placeLink (s : State) (bytes : List Byte) :
    (s.placeLink bytes).fetch = .ofDecoded (decode .link bytes) := by
  rw [fetch_parse _ (s.cur + bytes.length) rfl]
  exact congrArg (fun b => Fetched.ofDecoded (decode .link b)) (rxBytes_placeRx s s.cur bytes)

theorem fetch_placeTail (s : State) {bytes : List Byte} (h : bytes.length = 4) :
    (s.placeTail bytes).fetch = .ofDecoded (decode .tail bytes) := by
  rw [fetch_tail _ (s.wp + bytes.length) rfl, State.tailBytes, if_neg (by omega), h, Nat.add_sub_cancel, ← h]
  exact congrArg (fun b => Fetched.ofDecoded (decode .tail b)) (rxBytes_placeRx s s.wp bytes)

theorem fetch_placeBody (s : State) (body : List Byte) :
    (s.placeBody body).fetch = .ofDecoded (decode .body body) := fetch_ra _ body _ rfl

theorem tableBytes_tail_length {nbits w : Nat} (h : tableLevel nbits w = .tail) : (tableBytes nbits w).length = 4 := by
  simp [tableBytes, h, natBytes]

/-- The one word read on the uplink is the acknowledgement's. -/
theorem tableLevel_uplink {nbits w : Nat} (h : tableLevel nbits w = .uplink) : nbits = 32 ∧ w = 0x4B4F0002 := by
  unfold tableLevel at h
  split_ifs at h with _ _ hack
  exact hack

theorem decodeTableWord_eq_some {nbits w : Nat} {i : Instr} (h : decodeTableWord nbits w = some i) :
    ∃ rest, decode (tableLevel nbits w) (tableBytes nbits w) = .instr i rest := by
  unfold decodeTableWord at h
  split at h
  · next hd =>
    cases h
    exact ⟨_, hd⟩
  · cases h

/-- Settles O39: each level's placement puts the word's bytes where the fetch of that level looks. -/
theorem placedWordIsFetched : Obligations.PlacedWordIsFetched := by
  intro s nbits w i hi
  obtain ⟨rest, hd⟩ := decodeTableWord_eq_some hi
  cases hl : tableLevel nbits w <;> rw [hl] at hd <;> rw [State.withFetchWord, hl]
  case link => rw [fetch_placeLink, hd, Fetched.ofDecoded]
  case tail => rw [fetch_placeTail s (tableBytes_tail_length hl), hd, Fetched.ofDecoded]
  case body => rw [fetch_placeBody, hd, Fetched.ofDecoded]
  case uplink =>
    obtain ⟨rfl, rfl⟩ := tableLevel_uplink hl
    have hack : decodeTableWord 32 0x4B4F0002 = some .ack := by decide
    rw [fetch_ackDue _ rfl, Option.some.inj (hack.symm.trans hi)]

/-! ## The step at each fetch point (log entries 7 and 12) -/

/-- A link item and the doubled marker are run as `exec` alone. -/
theorem step_eq_exec {s : State} {i : Instr} (hf : s.fetch = .instr i) (hp : State.retire s.phase = id) :
    step s = exec i s := by
  rw [step_instr hf, hp]
  cases exec i s <;> rfl

theorem step_of_exec {s u : State} {i : Instr} (hf : s.fetch = .instr i) (hx : exec i s = .next u) :
    step s = .next (State.retire s.phase u) := by
  rw [step_instr hf, hx, onNext]

/-- Settles O38: the fetch of each point finds the instruction, and `State.retire` says where the engine then stands. -/
theorem stepRunsTheDecodedInstruction : Obligations.StepRunsTheDecodedInstruction := by
  intro s i
  refine ⟨fun wp rest hp hd => ?_, fun wp rest hp hwp hd => ?_, fun body rest ctx u hp hd hx => ?_,
    fun r later ret ctx u hp hi hx => ?_, fun u hp hi hx => ?_⟩
  · refine step_eq_exec ?_ (by rw [hp]; rfl)
    rw [fetch_parse s wp hp, hd, Fetched.ofDecoded]
  · refine step_eq_exec ?_ (by rw [hp]; rfl)
    rw [fetch_tail s wp hp, State.tailBytes, if_neg (Nat.not_lt.2 hwp), hd, Fetched.ofDecoded]
  · cases hd
    rw [step_of_exec (fetch_ra s body ctx hp) hx, hp, State.retire]
  · subst hi
    rw [step_of_exec (fetch_uplink_cons s r later ret ctx hp) hx, hp, State.retire]
  · subst hi
    rw [step_of_exec (fetch_ackDue s hp) hx, hp, State.retire, State.endEvent]

end Sys2Proof.Machine
end

section
/-! The receive intake: `start()`, the beginnings of the two event steps and the tail inspection
(40_receive_intake.md R100 to R103, R107). -/

namespace Sys2Proof.Machine

/-- Settles O32: `start()` is one update of the receive registers. -/
theorem startBeginsAReceiveCycle : Obligations.StartBeginsAReceiveCycle := by
  intro s later hp hi
  rw [step_agent hp hi, State.agentStep, start_eq]

/-- Settles O34: the idle event is the only one pending, and its step begins in one of four ways. -/
theorem idleEventBeginsItsStep : Obligations.IdleEventBeginsItsStep := by
  intro s first later hp hi hidle htc
  have hnext := nextEvent_only_idle { s with inputs := later } first hidle htc
  rw [step_agent hp hi, State.agentStep, serve_some { s with inputs := later } first _ hnext]
  refine ⟨fun hr => ?_, fun hr herr => ?_, fun hr herr hwp => ?_, fun hr herr hcur => ?_⟩
  · rw [handleIdle_stopped { s with inputs := later } hr]
  · rw [handleIdle_latched { s with inputs := later } hr herr]
  · rw [handleIdle_behind { s with inputs := later } hr herr hwp]
  · rw [handleIdle_parse { s with inputs := later } hr herr hcur]

/-- Settles O35: the transfer-complete event is the only one pending. -/
theorem transferCompleteLatches : Obligations.TransferCompleteLatches := by
  intro s first later hp hi hidle htc
  have hnext := nextEvent_only_tc { s with inputs := later } first hidle htc
  rw [step_agent hp hi, State.agentStep, serve_some { s with inputs := later } first _ hnext]
  refine ⟨fun hr => ?_, fun hr => ?_⟩
  · rw [handleTc_stopped { s with inputs := later } hr]
  · rw [handleTc_active { s with inputs := later } hr]

/-- Settles O43: an idle event is handled with no transfer-complete event pending, where the invariant orders the two
positions, or at a full buffer, which the cursor cannot pass. -/
theorem defensiveLineIsUnreachable : Obligations.DefensiveLineIsUnreachable := by
  intro s first hs hnext herr
  obtain ⟨_, _, hnone⟩ | ⟨_, _, htc | ⟨hfull, _⟩⟩ | ⟨_, htc⟩ := nextEvent_cases s first
  · rw [hnone] at hnext
    cases hnext
  · exact (hs.behind herr htc).1
  · exact hfull ▸ hs.curCap
  · rw [htc] at hnext
    cases hnext

theorem step_tail_of_marker {s : State} {wp : Nat} (hp : s.phase = .tail wp)
    (hb : s.tailBytes wp = Config.sync4Bytes) : step s = .next (handshake s).endEvent := by
  have hfetch : s.fetch = .instr .sync4 := by
    rw [fetch_tail s wp hp, hb]
    rfl
  exact step_eq_exec hfetch (by rw [hp]; rfl)

theorem step_tail_of_no_marker {s : State} {wp : Nat} (hp : s.phase = .tail wp)
    (hb : s.tailBytes wp ≠ Config.sync4Bytes) : step s = .next s.endEvent := by
  obtain ⟨hmarker, _⟩ | ⟨_, hd⟩ := decodeTail_cases (s.tailBytes wp)
  · exact absurd hmarker hb
  · rw [step, fetch_tail s wp hp, decode, hd, Fetched.ofDecoded]

/-- Settles O37: the tail's four bytes are the doubled marker, or they are not (D30). -/
theorem tailInspectionSeesOnlyTheDoubledMarker : Obligations.TailInspectionSeesOnlyTheDoubledMarker := by
  intro s wp hp
  rw [← tailBytes_eq_iff s wp]
  exact ⟨step_tail_of_marker hp, step_tail_of_no_marker hp⟩

end Sys2Proof.Machine
end

section
/-! Every event step ends (40_receive_intake.md R108, 00_scope.md R18): with handlers that return the machine does not
stop, and until the event step ends each machine step makes `State.stepsLeft` smaller. -/

namespace Sys2Proof.Machine

/-! ## The machine does not stop -/

theorem exec_next (i : Instr) (s : State) : ∃ t, exec i s = .next t := by
  cases i with
  | frame payload crc =>
    obtain ⟨_, h⟩ | ⟨_, _, h⟩ | ⟨_, _, _, h⟩ := execFrame_cases payload crc s <;> exact ⟨_, h⟩
  | setb addr idx =>
    rw [exec, execSetb]
    split <;> exact ⟨_, rfl⟩
  | clrb addr idx =>
    rw [exec, execClrb]
    split <;> exact ⟨_, rfl⟩
  | _ => exact ⟨_, rfl⟩

theorem ofDecoded_ne_hangs (d : Decoded) : Fetched.ofDecoded d ≠ .hangs := by
  cases d <;> exact Fetched.noConfusion

/-- Only at the end of a handler that does not return is there nothing to go on with (R211 (c)). -/
theorem phase_of_fetch_hangs {s : State} (h : s.fetch = .hangs) : ∃ ctx, s.phase = .uplink [] false ctx := by
  unfold State.fetch at h
  split at h
  case h_1 => split at h <;> cases h
  case h_8 hp => exact ⟨_, hp⟩
  case h_2 | h_3 | h_4 => exact absurd h (ofDecoded_ne_hangs _)
  all_goals cases h

/-- Every handler called in the running event step, or still to be called, returns (R211 (c)). -/
def State.HandlersReturn (s : State) : Prop :=
  (∀ r ∈ s.handlers, r.returns = true) ∧ ∀ requests ctx, s.phase ≠ .uplink requests false ctx

theorem State.HandlersReturn.step_next {s : State} (hs : s.HandlersReturn) : ∃ t, step s = .next t := by
  cases hf : s.fetch with
  | instr i =>
    obtain ⟨u, hx⟩ := exec_next i s
    exact ⟨_, step_of_exec hf hx⟩
  | hangs =>
    obtain ⟨ctx, hp⟩ := phase_of_fetch_hangs hf
    exact absurd hp (hs.2 [] ctx)
  | _ =>
    rw [step, hf]
    exact ⟨_, rfl⟩

theorem State.HandlersReturn.nextReply {s : State} (hs : s.HandlersReturn) : s.nextReply.returns = true := by
  unfold State.nextReply
  cases hh : s.handlers with
  | nil => rfl
  | cons r later => exact hs.1 r (by rw [hh]; exact List.mem_cons_self)

/-! ## How far the event step is from its end -/

/-- The transmissions that coming calls of external handlers make. -/
def sendsScripted (handlers : List HandlerReply) : Nat := (handlers.map fun r => r.requests.length).sum

/-- The machine steps for the frames that may still stand behind the one whose handler runs: three for each six
bytes, and none once a transmission has restarted reception. -/
def State.stepsBehind (s : State) (ctx : FrameCtx) : Nat :=
  if s.txf then 0 else 3 * ((ctx.wp - (s.cur + ctx.total)) / 6)

/-- At most how many machine steps the running event step still takes, transmissions of external handlers apart. -/
def State.movesLeft (s : State) : Nat :=
  match s.phase with
  | .rest => 0
  | .tail _ | .ackDue => 1
  | .parse wp => 3 * ((wp - s.cur) / 6) + 1
  | .handler _ _ ctx => 3 * ((ctx.wp - (s.cur + ctx.total)) / 6) + 3
  | .uplink _ _ ctx | .returned ctx => s.stepsBehind ctx + 2

/-- At most how many machine steps the running event step still takes. -/
def State.stepsLeft (s : State) : Nat := s.movesLeft + s.sendsDue

theorem stepsLeft_rest {s : State} (h : s.phase = .rest) : s.stepsLeft = sendsScripted s.handlers := by
  simp [State.stepsLeft, State.movesLeft, State.sendsDue, sendsScripted, h]

theorem stepsLeft_parse {s : State} {wp : Nat} (h : s.phase = .parse wp) :
    s.stepsLeft = 3 * ((wp - s.cur) / 6) + 1 + sendsScripted s.handlers := by
  simp [State.stepsLeft, State.movesLeft, State.sendsDue, sendsScripted, h]

theorem stepsLeft_handler {s : State} {hd : HandlerId} {body : List Byte} {ctx : FrameCtx}
    (h : s.phase = .handler hd body ctx) :
    s.stepsLeft = 3 * ((ctx.wp - (s.cur + ctx.total)) / 6) + 3 + sendsScripted s.handlers := by
  simp [State.stepsLeft, State.movesLeft, State.sendsDue, sendsScripted, h]

theorem stepsLeft_uplink {s : State} {requests : List TxRequest} {ret : Bool} {ctx : FrameCtx}
    (h : s.phase = .uplink requests ret ctx) :
    s.stepsLeft = s.stepsBehind ctx + 2 + (requests.length + sendsScripted s.handlers) := by
  simp [State.stepsLeft, State.movesLeft, State.sendsDue, sendsScripted, h]

theorem stepsLeft_returned {s : State} {ctx : FrameCtx} (h : s.phase = .returned ctx) :
    s.stepsLeft = s.stepsBehind ctx + 2 + sendsScripted s.handlers := by
  simp [State.stepsLeft, State.movesLeft, State.sendsDue, sendsScripted, h]

theorem stepsBehind_of_txf {s : State} (h : s.txf = true) (ctx : FrameCtx) : s.stepsBehind ctx = 0 := if_pos h

theorem stepsBehind_of_silent {s : State} (h : s.txf = false) (ctx : FrameCtx) :
    s.stepsBehind ctx = 3 * ((ctx.wp - (s.cur + ctx.total)) / 6) := by
  simp [State.stepsBehind, h]

/-- With or without a transmission, no more than the frames behind this one. -/
theorem stepsBehind_le (s : State) (ctx : FrameCtx) :
    s.stepsBehind ctx ≤ 3 * ((ctx.wp - (s.cur + ctx.total)) / 6) := by
  cases htxf : s.txf with
  | true => exact stepsBehind_of_txf htxf ctx ▸ Nat.zero_le _
  | false => exact (stepsBehind_of_silent htxf ctx).le

theorem movesLeft_pos {s : State} (h : s.phase ≠ .rest) : 0 < s.movesLeft := by
  unfold State.movesLeft
  split
  case h_1 hp => exact absurd hp h
  all_goals omega

theorem sendsScripted_le_sendsDue (s : State) : sendsScripted s.handlers ≤ s.sendsDue := Nat.le_add_left _ _

/-- The reply that a call takes from the script is no longer in it. -/
theorem sendsScripted_nextReply (s : State) :
    s.nextReply.requests.length + sendsScripted s.handlers.tail = sendsScripted s.handlers := by
  unfold State.nextReply
  cases s.handlers <;> simp [sendsScripted]

theorem State.Inv.stepsBehind_le_rxCap {s : State} (hs : s.Inv) {ctx : FrameCtx}
    (hp : s.phase = .returned ctx ∨ ∃ requests ret, s.phase = .uplink requests ret ctx) :
    s.stepsBehind ctx ≤ 3 * (Config.rxCap / 6) := by
  obtain ⟨_, _, ⟨htxf, _⟩ | ⟨htxf, _, _, hwp⟩⟩ := (phaseOk_afterCall hp).1 hs.phaseOk
  · rw [stepsBehind_of_txf htxf]
    exact Nat.zero_le _
  · have hcap := hs.wpCap
    rw [stepsBehind_of_silent htxf]
    omega

/-- The invariant keeps the frames that can still come below the write position, and so within `RX_CAP`. -/
theorem State.Inv.movesLeft_le {s : State} (hs : s.Inv) : s.movesLeft ≤ 3 * (Config.rxCap / 6) + 3 := by
  have hcap := hs.wpCap
  cases hp : s.phase with
  | rest | tail | ackDue =>
    simp only [State.movesLeft, hp]
    omega
  | parse wp =>
    obtain ⟨_, _, _, _, hwp⟩ := (phaseOk_parse hp).1 hs.phaseOk
    simp only [State.movesLeft, hp]
    omega
  | handler hd body ctx =>
    obtain ⟨_, _, _, _, _, hwp⟩ := (phaseOk_handler hp).1 hs.phaseOk
    simp only [State.movesLeft, hp]
    omega
  | uplink requests ret ctx =>
    have hbehind := hs.stepsBehind_le_rxCap (.inr ⟨requests, ret, hp⟩)
    simp only [State.movesLeft, hp]
    omega
  | returned ctx =>
    have hbehind := hs.stepsBehind_le_rxCap (.inl hp)
    simp only [State.movesLeft, hp]
    omega

/-! ## What a micro-instruction leaves to the environment -/

theorem MicroEffect.inputs {s u : State} (he : MicroEffect s u) : u.inputs = s.inputs := by cases he <;> rfl

theorem MicroEffect.handlers {s u : State} (he : MicroEffect s u) : u.handlers = s.handlers := by cases he <;> rfl

/-! ## Every step of an event step brings its end nearer -/

/-- One machine step inside an event step: no other agent has acted, handlers still return, and the end is nearer. -/
structure Advances (s t : State) : Prop where
  inputs : t.inputs = s.inputs
  returns : t.HandlersReturn
  closer : t.stepsLeft < s.stepsLeft

theorem advances_of_rest {s t : State} (hs : s.HandlersReturn) (hp : s.phase ≠ .rest) (ht : t.phase = .rest)
    (hi : t.inputs = s.inputs) (hh : t.handlers = s.handlers) : Advances s t where
  inputs := hi
  returns := ⟨hh ▸ hs.1, fun _ _ h => by rw [ht] at h; cases h⟩
  closer := by
    have hpos := movesLeft_pos hp
    have hdue := sendsScripted_le_sendsDue s
    rw [stepsLeft_rest ht, hh, State.stepsLeft]
    omega

theorem State.HandlersReturn.advances_link {s u : State} (hs : s.HandlersReturn) {wp : Nat} {i : Instr}
    {rest : List Byte} (hp : s.phase = .parse wp) (hd : decodeLink (s.rxBytes s.cur wp) = .instr i rest)
    (hx : exec i s = .next u) : Advances s u := by
  have hrunning : s.phase ≠ .rest := by simp [hp]
  rcases linkItem_cases hd hx with rfl | rfl | ⟨payload, crc, rfl, hu⟩
  · exact advances_of_rest hs hrunning rfl rfl rfl
  · exact advances_of_rest hs hrunning rfl rfl rfl
  · obtain ⟨hmin, hlen⟩ := decodeLink_frame_length hd
    rw [rxBytes_length] at hlen
    rcases hu with ⟨c, rfl⟩ | ⟨handler, body, rfl⟩
    · refine ⟨rfl, hs, ?_⟩
      have hp' : (s.formatError (payload.length + 4) c).phase = .parse wp := hp
      rw [stepsLeft_parse hp, stepsLeft_parse hp', formatError_cur, formatError_handlers]
      omega
    · refine ⟨rfl, ⟨hs.1, fun _ _ => Phase.noConfusion⟩, ?_⟩
      have hsampled : s.sampledWp = wp := by simp only [State.sampledWp, hp]
      rw [stepsLeft_parse hp, stepsLeft_handler (invoke_phase ..), invoke_cur, invoke_handlers, hsampled]
      dsimp only
      omega

theorem State.HandlersReturn.advances_micro {s u : State} (hs : s.HandlersReturn) {hd : HandlerId}
    {body : List Byte} {ctx : FrameCtx} (hp : s.phase = .handler hd body ctx) (he : MicroEffect s u) :
    Advances s { u with phase := .returned ctx } := by
  have hbehind : ({ u with phase := .returned ctx } : State).stepsBehind ctx ≤
      3 * ((ctx.wp - (s.cur + ctx.total)) / 6) := by
    rcases he.sameButMem_or_replied with h | ⟨a, w, size, data, rfl⟩
    · rw [h]
      exact stepsBehind_le _ ctx
    · exact Nat.zero_le _
  refine ⟨he.inputs, ⟨he.handlers.symm ▸ hs.1, fun _ _ => Phase.noConfusion⟩, ?_⟩
  have hleft : ({ u with phase := .returned ctx } : State).stepsLeft ≤
      3 * ((ctx.wp - (s.cur + ctx.total)) / 6) + 2 + sendsScripted s.handlers := by
    rw [stepsLeft_returned rfl, ← he.handlers]
    exact Nat.add_le_add_right (Nat.add_le_add_right hbehind 2) _
  rw [stepsLeft_handler hp]
  omega

theorem State.HandlersReturn.advances_call {s : State} (hs : s.HandlersReturn) {hd : HandlerId}
    {body : List Byte} {ctx : FrameCtx} (hp : s.phase = .handler hd body ctx) :
    Advances s (s.callExternal hd body ctx) := by
  refine ⟨rfl, ⟨fun r hr => hs.1 r (List.mem_of_mem_tail hr), fun requests ctx' h => ?_⟩, ?_⟩
  · have hreturns : s.nextReply.returns = false := (Phase.uplink.inj h).2.1
    rw [hs.nextReply] at hreturns
    cases hreturns
  · have hbehind : (s.callExternal hd body ctx).stepsBehind ctx ≤ 3 * ((ctx.wp - (s.cur + ctx.total)) / 6) :=
      stepsBehind_le _ ctx
    have hsends := sendsScripted_nextReply s
    have hleft : (s.callExternal hd body ctx).stepsLeft = (s.callExternal hd body ctx).stepsBehind ctx + 2 +
        (s.nextReply.requests.length + sendsScripted s.handlers.tail) := stepsLeft_uplink rfl
    rw [stepsLeft_handler hp, hleft]
    omega

theorem State.HandlersReturn.advances_uplink {s : State} (hs : s.HandlersReturn) {r : TxRequest}
    {later : List TxRequest} {ret : Bool} {ctx : FrameCtx} (hp : s.phase = .uplink (r :: later) ret ctx) :
    Advances s { transmit s r.size r.data with phase := .uplink later ret ctx } := by
  refine ⟨rfl, ⟨hs.1, fun requests ctx' h => ?_⟩, ?_⟩
  · cases h
    exact hs.2 _ _ hp
  · rw [stepsLeft_uplink hp, stepsLeft_uplink rfl, stepsBehind_of_txf rfl, List.length_cons, transmit_handlers]
    omega

theorem State.HandlersReturn.advances_return {s : State} (hs : s.HandlersReturn) {ctx : FrameCtx}
    (hp : s.phase = .returned ctx ∨ s.phase = .uplink [] true ctx) : Advances s (s.parserReturn ctx) := by
  cases htxf : s.txf with
  | true =>
    rw [parserReturn_of_txf htxf]
    exact advances_of_rest hs (by rcases hp with hp | hp <;> simp [hp]) rfl rfl rfl
  | false =>
    rw [parserReturn_of_silent htxf]
    refine ⟨rfl, ⟨hs.1, fun _ _ => Phase.noConfusion⟩, ?_⟩
    have hleft : s.stepsLeft = s.stepsBehind ctx + 2 + sendsScripted s.handlers := by
      rcases hp with hp | hp
      · exact stepsLeft_returned hp
      · rw [stepsLeft_uplink hp, List.length_nil, Nat.zero_add]
    rw [hleft, stepsBehind_of_silent htxf, stepsLeft_parse (consumed_phase s ctx), consumed_cur, consumed_handlers]
    omega

theorem State.HandlersReturn.advances {s t : State} (hs : s.HandlersReturn) (hp : s.phase ≠ .rest)
    (hstep : step s = .next t) : Advances s t := by
  cases step_cases hstep with
  | link wp i rest _ hparse hd hx => exact hs.advances_link hparse hd hx
  | micro body ctx u hhandler _ he => exact hs.advances_micro hhandler he
  | call id body ctx hhandler => exact hs.advances_call hhandler
  | uplink r later ret ctx huplink => exact hs.advances_uplink huplink
  | returned ctx hreturned => exact hs.advances_return hreturned
  | needMore | tailMarker | noMarker | ack => exact advances_of_rest hs hp rfl rfl rfl
  | agent _ _ hrest | quiet hrest => exact absurd hrest hp

/-! ## The end of the event step -/

theorem State.HandlersReturn.comes_to_rest {s : State} (hs : s.HandlersReturn) :
    ∃ k t, k ≤ s.stepsLeft ∧ Steps k s t ∧ t.phase = .rest ∧ t.inputs = s.inputs := by
  by_cases hp : s.phase = .rest
  · exact ⟨0, s, Nat.zero_le _, steps_zero s, hp, rfl⟩
  · obtain ⟨u, hstep⟩ := hs.step_next
    have hadv := hs.advances hp hstep
    have hcloser := hadv.closer
    obtain ⟨k, t, hk, hrun, ht, hinputs⟩ := hadv.returns.comes_to_rest
    exact ⟨k + 1, t, by omega, hrun.cons hstep, ht, hinputs.trans hadv.inputs⟩
termination_by s.stepsLeft

/-- Settles O57: each machine step makes `State.stepsLeft` smaller, and the invariant bounds its value. -/
theorem eventStepEnds : Obligations.EventStepEnds := by
  intro s hs hscript hrunning
  have hreturn : s.HandlersReturn := ⟨hscript, hrunning⟩
  obtain ⟨k, t, hk, hrun, ht, hinputs⟩ := hreturn.comes_to_rest
  exact ⟨k, t, hk.trans (Nat.add_le_add_right hs.movesLeft_le _), hrun, ht, hinputs⟩

end Sys2Proof.Machine
end

section
/-! Link items that are cut off or have an illegal size (41_frame_parser.md R120 to R123). -/

namespace Sys2Proof.Machine

theorem decodeLink_of_short {b : List Byte} (h : b.length < 2) : decodeLink b = .needMore (2 - b.length) := by
  rw [decodeLink, if_pos h]

theorem decodeLink_of_incomplete {b : List Byte} (hb : 2 ≤ b.length) (hlegal : legalSize (le16 b 0).toNat = true)
    (h : b.length < (le16 b 0).toNat + 4) : decodeLink b = .needMore ((le16 b 0).toNat + 4 - b.length) := by
  obtain ⟨hmin, _, hmax⟩ := (legalSize_iff _).1 hlegal
  have hmarker : le16 b 0 ≠ Config.syncMarker := fun he => hmax (congrArg BitVec.toNat he)
  have hsize : ¬ (le16 b 0).toNat < Config.sizeMin := Nat.not_lt.2 hmin
  rw [decodeLink, if_neg (Nat.not_lt.2 hb), if_neg hmarker, if_neg hsize, if_pos h]

/-- How much is missing of an item is read off the number of bytes and the size field. -/
theorem decodeLink_needMore_congr {b c : List Byte} {n : Nat} (hlen : c.length = b.length)
    (hsize : le16 c 0 = le16 b 0) (h : decodeLink b = .needMore n) : decodeLink c = .needMore n := by
  rcases decodeLink_cases b with ⟨hb, hd⟩ | ⟨_, _, hd⟩ | ⟨_, _, hd⟩ | ⟨hb, hlegal, hshort, hd⟩ | ⟨_, _, hd⟩ <;>
    rw [h] at hd <;> cases hd
  · rw [← hlen] at hb ⊢
    exact decodeLink_of_short hb
  · rw [← hsize] at hlegal hshort ⊢
    rw [← hlen] at hb hshort ⊢
    exact decodeLink_of_incomplete hb hlegal hshort

/-- Settles O6: the size field is incomplete, or it is that of the whole frame. -/
theorem cutOffFrameReportsItsShortfall : Obligations.CutOffFrameReportsItsShortfall := by
  intro payload crc k hwf hk
  have hlegal : legalSize payload.length = true := hwf
  have hlen : ((encode (.frame payload crc)).take k).length = k := by
    rw [List.length_take, encode, envelope_length]
    omega
  rw [decode]
  split_ifs with hshort
  · rw [decodeLink_of_short (by omega), hlen]
  · have hsize : (le16 ((encode (.frame payload crc)).take k) 0).toNat = payload.length := by
      obtain hk | rfl : 2 < k ∨ k = 2 := by omega
      all_goals
        rw [le16_take _ _ _ (by omega), ← List.append_nil (encode _), encode, le16_envelope]
        exact (ofNat_of_legal hlegal).1
    rw [decodeLink_of_incomplete (by omega) (by rwa [hsize]) (by omega), hsize, hlen]

/-- Settles O12: the decoder tests the size before it asks whether the frame is all there. -/
theorem illegalSizeLatches : Obligations.IllegalSizeLatches := fun _ rest _ h =>
  ⟨decodeLink_illegalSize h rest, rfl⟩

end Sys2Proof.Machine
end

section
/-! `FRAME` by its payload: the three malformed kinds, and a registered key (41_frame_parser.md R125 to R129,
42_dispatcher.md R143). -/

namespace Sys2Proof.Machine

/-! ## `Lookup` -/

theorem lookupSlot_eq_some_iff {reg : List RegEntry} {key : List Byte} {k : Nat} :
    lookupSlot reg key = some k ↔
      (∃ e, reg[k]? = some e ∧ e.key = key) ∧ ∀ j, j < k → ∀ e, reg[j]? = some e → e.key ≠ key := by
  rw [lookupSlot, List.findIdx?_eq_some_iff_getElem]
  constructor
  · rintro ⟨hk, hkey, hfirst⟩
    refine ⟨⟨reg[k], List.getElem?_eq_getElem hk, eq_of_beq hkey⟩, fun j hj e he heq => ?_⟩
    obtain ⟨_, rfl⟩ := List.getElem?_eq_some_iff.1 he
    exact hfirst j hj (beq_iff_eq.2 heq)
  · rintro ⟨⟨e, he, hkey⟩, hfirst⟩
    obtain ⟨hk, rfl⟩ := List.getElem?_eq_some_iff.1 he
    exact ⟨hk, beq_iff_eq.2 hkey, fun j hj heq =>
      hfirst j hj _ (List.getElem?_eq_getElem (hj.trans hk)) (eq_of_beq heq)⟩

theorem lookupSlot_eq_none_iff {reg : List RegEntry} {key : List Byte} :
    lookupSlot reg key = none ↔ ∀ e ∈ reg, e.key ≠ key := by
  simp [lookupSlot]

theorem lookup_of_first {reg : List RegEntry} {key : List Byte} {k : Nat} {e : RegEntry} (he : reg[k]? = some e)
    (hkey : e.key = key) (hfirst : ∀ j, j < k → ∀ e', reg[j]? = some e' → e'.key ≠ key) :
    lookup reg key = some e := by
  rw [lookup, lookupSlot_eq_some_iff.2 ⟨⟨e, he, hkey⟩, hfirst⟩, Option.bind_some, he]

theorem lookup_of_absent {reg : List RegEntry} {key : List Byte} (h : ∀ e ∈ reg, e.key ≠ key) :
    lookup reg key = none := by
  rw [lookup, lookupSlot_eq_none_iff.2 h, Option.bind_none]

/-! ## What `FRAME` does -/

theorem exec_frame_no_colon {payload : List Byte} (h : ∀ b ∈ payload, b ≠ Config.sep) (s : State) :
    exec (frameOf payload) s = .next (s.formatError (payload.length + 4) .noColon) := by
  simp [exec, frameOf, execFrame, colonIndex_none payload h]

theorem exec_frame_long_key {key : List Byte} (hsep : ∀ b ∈ key, b ≠ Config.sep) (h : Config.keyMax < key.length)
    (body : List Byte) (s : State) :
    exec (frameOf (key ++ Config.sep :: body)) s =
      .next (s.formatError ((key ++ Config.sep :: body).length + 4) .keyTooLong) := by
  simp [exec, frameOf, execFrame, colonIndex_append key body hsep, h]

/-- A key that is not too long is looked up. -/
theorem exec_frame_lookup {key : List Byte} (hsep : ∀ b ∈ key, b ≠ Config.sep) (h : key.length ≤ Config.keyMax)
    (body : List Byte) (s : State) :
    exec (frameOf (key ++ Config.sep :: body)) s =
      .next (match lookup s.reg key with
        | none => s.formatError ((key ++ Config.sep :: body).length + 4) .noHandler
        | some e => s.invoke e.handler body ((key ++ Config.sep :: body).length + 4)) := by
  cases hlookup : lookup s.reg key <;>
    simp [exec, frameOf, execFrame, colonIndex_append key body hsep, Nat.not_lt.2 h, hlookup]

theorem exec_frame_unknown_key {key : List Byte} (hsep : ∀ b ∈ key, b ≠ Config.sep) (h : key.length ≤ Config.keyMax)
    (body : List Byte) {s : State} (habsent : ∀ e ∈ s.reg, e.key ≠ key) :
    exec (frameOf (key ++ Config.sep :: body)) s =
      .next (s.formatError ((key ++ Config.sep :: body).length + 4) .noHandler) := by
  rw [exec_frame_lookup hsep h, lookup_of_absent habsent]

theorem exec_frame_registered {key : List Byte} (hsep : ∀ b ∈ key, b ≠ Config.sep) (h : key.length ≤ Config.keyMax)
    (body : List Byte) {s : State} {e : RegEntry} (hlookup : lookup s.reg key = some e) :
    exec (frameOf (key ++ Config.sep :: body)) s =
      .next (s.invoke e.handler body (key.length + 1 + body.length + 4)) := by
  have hlen : (key ++ Config.sep :: body).length = key.length + 1 + body.length := by
    rw [List.length_append, List.length_cons]
    omega
  rw [exec_frame_lookup hsep h, hlookup, hlen]

/-- Settles O7: this is the entry to the latched state. -/
theorem wrongCrcLatches : Obligations.WrongCrcLatches := fun _ _ s h => exec_frame_of_crc_ne h s

/-- Settles O9: each malformed kind is the parser's `FormatError` over the whole frame. -/
theorem malformedFrameIsSkipped : Obligations.MalformedFrameIsSkipped := by
  intro payload s
  refine ⟨fun hcolon => exec_frame_no_colon hcolon s, ?_, ?_⟩
  · rintro key body rfl hsep hlong
    exact exec_frame_long_key hsep hlong body s
  · rintro key body rfl hsep hshort habsent
    exact exec_frame_unknown_key hsep hshort body habsent

/-- Settles O10: the first entry with the key is the one `Lookup` finds. -/
theorem registeredKeyInvokesItsHandler : Obligations.RegisteredKeyInvokesItsHandler :=
  fun _ body _ _ _ hsep hshort he hkey hfirst =>
    exec_frame_registered hsep hshort body (lookup_of_first he hkey hfirst)

end Sys2Proof.Machine
end

section
/-! The parse loop: what the step reads of `RXBUF` and how it ends (41_frame_parser.md R120 to R124, R131, R132, R135;
40_receive_intake.md R104 to R106). -/

namespace Sys2Proof.Machine

/-! ## The bytes at the cursor -/

/-- The first `n` bytes read are those of the buffer, as far as they lie below the end. -/
theorem take_rxBytes_congr {s t : State} {lo hi n : Nat}
    (h : ∀ k, k < n → lo + k < hi → t.rxByte (lo + k) = s.rxByte (lo + k)) :
    (t.rxBytes lo hi).take n = (s.rxBytes lo hi).take n := by
  rw [State.rxBytes, State.rxBytes, ← List.map_take, ← List.map_take, List.take_range, List.map_inj_left]
  intro k hk
  rw [List.mem_range] at hk
  exact h k (by omega) (by omega)

theorem rxBytes_of_rxHolds {s : State} {lo hi : Nat} {bytes : List Byte} (h : s.RxHolds lo bytes)
    (hhi : lo + bytes.length ≤ hi) : s.rxBytes lo hi = bytes ++ s.rxBytes (lo + bytes.length) hi := by
  rw [rxBytes_split s lo (lo + bytes.length) hi (Nat.le_add_right _ _) hhi, h]

theorem rxHolds_append {s : State} {lo : Nat} {a b : List Byte} :
    s.RxHolds lo (a ++ b) ↔ s.RxHolds lo a ∧ s.RxHolds (lo + a.length) b := by
  rw [State.RxHolds, List.length_append, ← Nat.add_assoc,
    rxBytes_split s lo (lo + a.length) _ (Nat.le_add_right _ _) (Nat.le_add_right _ _)]
  exact ⟨fun h => List.append_inj h (by simp), fun ⟨ha, hb⟩ => by rw [ha, hb]⟩

theorem decodeLink_encode {i : Instr} (hl : i.level = .link) (h : i.wf = true) (rest : List Byte) :
    decodeLink (encode i ++ rest) = .instr i rest := by
  have hd := decodeOfEncodeIsTheInstruction i rest h
  rw [hl] at hd
  exact hd

/-- A well-formed item that lies at the cursor below the fill position is what is fetched. -/
theorem fetch_of_rxHolds {s : State} {wp : Nat} {i : Instr} (hp : s.phase = .parse wp) (hl : i.level = .link)
    (hwf : i.wf = true) (h : s.RxHolds s.cur (encode i)) (hwp : s.cur + (encode i).length ≤ wp) :
    s.fetch = .instr i := by
  rw [fetch_parse s wp hp, rxBytes_of_rxHolds h hwp, decode, decodeLink_encode hl hwf, Fetched.ofDecoded]

/-! ## The step -/

theorem step_link {s : State} {wp : Nat} {i : Instr} (hp : s.phase = .parse wp) (hf : s.fetch = .instr i) :
    step s = exec i s := step_eq_exec hf (by rw [hp]; rfl)

theorem step_needMore {s : State} {wp n : Nat} (hp : s.phase = .parse wp)
    (hd : decodeLink (s.rxBytes s.cur wp) = .needMore n) : step s = .next (s.needMoreBytes n) := by
  rw [step, fetch_parse s wp hp, decode, hd, Fetched.ofDecoded]

theorem step_returned {s : State} {ctx : FrameCtx} (hp : s.phase = .returned ctx) :
    step s = .next (s.parserReturn ctx) := by
  rw [step, fetch_returned s ctx hp]

/-- Settles O13: the move is the parser's return. -/
theorem transmissionTurnsConsumedIntoSync : Obligations.TransmissionTurnsConsumedIntoSync := by
  intro s ctx hp
  rw [step_returned hp]
  refine ⟨fun htxf => ?_, fun htxf => ?_⟩
  · rw [parserReturn_of_txf htxf]
  · rw [parserReturn_of_silent htxf]
    rfl

/-- Settles O14: what is missing counts from the bytes there are. -/
theorem incompleteItemChangesNothing : Obligations.IncompleteItemChangesNothing := by
  intro s wp hp _
  have hlen : (s.rxBytes s.cur wp).length = wp - s.cur := rxBytes_length s s.cur wp
  refine ⟨fun hshort => ?_, fun havail hlegal hshort => ?_⟩
  · rw [← hlen] at hshort ⊢
    exact step_needMore hp (decodeLink_of_short hshort)
  · rw [← le16_rxBytes s s.cur wp havail] at hlegal hshort ⊢
    rw [← hlen] at havail hshort ⊢
    exact step_needMore hp (decodeLink_of_incomplete havail hlegal hshort)

/-! ## Noninterference of `RXBUF` -/

/-- The state with another receive buffer. -/
def State.withRxbuf (buf : Memory) (s : State) : State := { s with rxbuf := buf }

/-- A link item that has been read reads no byte of `RXBUF` when it runs. -/
theorem exec_link_withRxbuf {i : Instr} (hl : i.level = .link) (buf : Memory) (s : State) :
    exec i (s.withRxbuf buf) = onNext (State.withRxbuf buf) (exec i s) := by
  cases i with
  | frame payload crc =>
    simp only [exec, execFrame, State.withRxbuf]
    split
    · rfl
    · split
      · rfl
      · split
        · rfl
        · split <;> rfl
  | sync | illegalSize => rfl
  | _ => cases hl

/-- An item at the cursor is read as well from a buffer that agrees on its bytes. -/
theorem decodeLink_of_same_item {s t : State} {lo hi : Nat} {i : Instr} {rest : List Byte}
    (hd : decodeLink (s.rxBytes lo hi) = .instr i rest)
    (h : ∀ k, k < (encode i).length → t.rxByte (lo + k) = s.rxByte (lo + k)) :
    ∃ rest', decodeLink (t.rxBytes lo hi) = .instr i rest' := by
  obtain ⟨hwf, hl, hbytes⟩ := linkItemIsTheBytesAtTheFront _ _ _ hd
  have hitem : (t.rxBytes lo hi).take (encode i).length = encode i := by
    rw [take_rxBytes_congr fun k hk _ => h k hk, ← hbytes, List.take_left]
  rw [← List.take_append_drop (encode i).length (t.rxBytes lo hi), hitem]
  exact ⟨_, decodeLink_encode hl hwf _⟩

/-- Of an item that is not all there, only its size field is read. -/
theorem decodeLink_of_same_size {s t : State} {lo hi n : Nat} (hd : decodeLink (s.rxBytes lo hi) = .needMore n)
    (h : ∀ k, k < 2 → lo + k < hi → t.rxByte (lo + k) = s.rxByte (lo + k)) :
    decodeLink (t.rxBytes lo hi) = .needMore n := by
  refine decodeLink_needMore_congr (by rw [rxBytes_length, rxBytes_length]) ?_ hd
  rw [← le16_take _ 2 0 (by omega), take_rxBytes_congr h, le16_take _ 2 0 (by omega)]

/-- Settles O15: from the other buffer the same item, or the same shortfall, is read. -/
theorem parserReadsOnlyTheItem : Obligations.ParserReadsOnlyTheItem := by
  intro s buf wp hp
  have hp' : (s.withRxbuf buf).phase = .parse wp := hp
  refine ⟨fun i rest hd h => ?_, fun n hd h => ?_⟩
  · obtain ⟨_, hl, _⟩ := linkItemIsTheBytesAtTheFront _ _ _ hd
    obtain ⟨rest', hd'⟩ := decodeLink_of_same_item (t := s.withRxbuf buf) hd h
    obtain ⟨t, hx⟩ := exec_next i s
    have hx' := exec_link_withRxbuf hl buf s
    rw [hx] at hx'
    refine ⟨t, ?_, (exec_link hl hx).rxbuf, ?_⟩
    · rw [step_link hp (by rw [fetch_parse s wp hp, hd, Fetched.ofDecoded]), hx]
    · refine (step_link hp' ?_).trans hx'
      exact (fetch_parse _ wp hp').trans (congrArg Fetched.ofDecoded hd')
  · exact ⟨s.needMoreBytes n, step_needMore hp hd, rfl, step_needMore hp' (decodeLink_of_same_size hd h)⟩

/-! ## The item behind a skipped frame -/

/-- A good frame without a colon, or with a key that is too long or unknown, is a format error. -/
theorem exec_frame_malformed {payload : List Byte} {s : State}
    (h : (∀ b ∈ payload, b ≠ Config.sep) ∨
      ∃ key body, payload = key ++ Config.sep :: body ∧ (∀ b ∈ key, b ≠ Config.sep) ∧
        (key.length > 7 ∨ ∀ e ∈ s.reg, e.key ≠ key)) :
    ∃ c, exec (frameOf payload) s = .next (s.formatError (payload.length + 4) c) := by
  obtain hcolon | ⟨key, body, rfl, hsep, hkey⟩ := h
  · exact ⟨_, exec_frame_no_colon hcolon s⟩
  · obtain hlong | hshort := Nat.lt_or_ge Config.keyMax key.length
    · exact ⟨_, exec_frame_long_key hsep hlong body s⟩
    · exact ⟨_, exec_frame_unknown_key hsep hshort body (hkey.resolve_left (Nat.not_lt.2 hshort))⟩

theorem encode_frameOf_length (payload : List Byte) : (encode (frameOf payload)).length = payload.length + 4 :=
  envelope_length _ _ _

/-- Settles O16: the bytes below the fill position are the frame's, then the item's. -/
theorem itemBehindASkippedFrameIsRead : Obligations.ItemBehindASkippedFrameIsRead := by
  intro s wp payload j hp hlegal hwf hl hbytes hwp hmalformed
  obtain ⟨hframe, hitem⟩ := rxHolds_append.1 hbytes
  rw [List.length_append, encode_frameOf_length] at hwp
  rw [encode_frameOf_length] at hitem
  have hfetch : s.fetch = .instr (frameOf payload) :=
    fetch_of_rxHolds hp rfl hlegal hframe (by rw [encode_frameOf_length]; omega)
  obtain ⟨c, hx⟩ := exec_frame_malformed hmalformed
  have hnext : (s.formatError (payload.length + 4) c).fetch = .instr j :=
    fetch_of_rxHolds hp hl hwf hitem (by rw [formatError_cur]; omega)
  exact ⟨_, (step_link hp hfetch).trans hx, (Nat.add_assoc ..).symm, rfl, rfl, hnext⟩

end Sys2Proof.Machine
end

section
/-! A register-access frame from the cursor to its outcome (41_frame_parser.md R120 to R132, 42_dispatcher.md R145,
43_regaccess.md R150, R163). -/

namespace Sys2Proof.Machine

/-- The three classes that reply (R151 to R153). -/
def IsRead (i : Instr) : Prop := ∃ addr, i = .rd32 addr ∨ i = .rd8 addr ∨ i = .rd16 addr

/-- A read class has transmitted; any other leaves everything but `MEM` and what belongs to it alone. -/
theorem exec_micro_read_or_silent {i : Instr} {s u : State} (hl : i.level = .body) (hx : exec i s = .next u) :
    (IsRead i ∧ ∃ t size data, u = transmit t size data) ∨ (¬ IsRead i ∧ SameButMem s u) := by
  cases i with
  | rd32 addr => cases hx; exact .inl ⟨⟨addr, .inl rfl⟩, _, _, _, rfl⟩
  | rd8 addr => cases hx; exact .inl ⟨⟨addr, .inr (.inl rfl)⟩, _, _, _, rfl⟩
  | rd16 addr => cases hx; exact .inl ⟨⟨addr, .inr (.inr rfl)⟩, _, _, _, rfl⟩
  | setb addr idx | clrb addr idx =>
    refine .inr ⟨by simp [IsRead], ?_⟩
    simp only [exec, execSetb, execClrb] at hx
    split at hx <;> cases hx <;> rfl
  | wr8 | wr16 | wr32 | or32 | and32 | mod32 | nop => cases hx; exact .inr ⟨by simp [IsRead], rfl⟩
  | frame | sync | sync4 | illegalSize | ack | reply => cases hl

/-- The frame is read and its body handed to `RA`. -/
theorem step_invokes_ra {s : State} {wp : Nat} {body : List Byte} (hp : s.phase = .parse wp)
    (hlookup : lookup s.reg Config.raKey = some ⟨Config.raKey, .ra⟩) (hlegal : legalSize (body.length + 2) = true)
    (hbytes : s.RxHolds s.cur (encode (frameOf (raPayload body)))) (hwp : s.cur + (body.length + 6) ≤ wp) :
    step s = .next { s with phase := .handler .ra body ⟨body.length + 6, wp⟩ } := by
  have hlen : (raPayload body).length = body.length + 2 := rfl
  have hfetch : s.fetch = .instr (frameOf (raPayload body)) :=
    fetch_of_rxHolds hp rfl hlegal hbytes (by rw [encode_frameOf_length, hlen]; omega)
  have hsampled : s.sampledWp = wp := by simp only [State.sampledWp, hp]
  have htotal : Config.raKey.length + 1 + body.length + 4 = body.length + 6 := by
    rw [show Config.raKey.length = 1 from rfl]
    omega
  rw [step_link hp hfetch, raPayload, exec_frame_registered (by decide) (by decide) body hlookup, htotal,
    State.invoke, hsampled]

theorem step_micro {s u : State} {i : Instr} {ctx : FrameCtx} (hp : s.phase = .handler .ra (encode i) ctx)
    (hl : i.level = .body) (hwf : i.wf = true) (hx : exec i s = .next u) :
    step s = .next { u with phase := .returned ctx } := by
  have hfetch : s.fetch = .instr i := by
    rw [fetch_ra s _ ctx hp, (bodyClass_encode hl hwf).decodeBody_eq]
  rw [step_of_exec hfetch hx, hp, State.retire]

/-- Settles O55: the parser hands the body to `RA`, the micro-instruction runs, and the parser returns. -/
theorem registerAccessFrameRunsItsMicroInstruction : Obligations.RegisterAccessFrameRunsItsMicroInstruction := by
  rintro s wp k i total hp htxf he hfirst hwf hl hlegal rfl hbytes hwp
  have hinvoke := step_invokes_ra hp (lookup_of_first he rfl hfirst) hlegal hbytes hwp
  obtain ⟨u, hx⟩ := exec_next i { s with phase := .handler .ra (encode i) ⟨(encode i).length + 6, wp⟩ }
  have hrun : Steps 3 s (State.parserReturn { u with phase := .returned ⟨(encode i).length + 6, wp⟩ } _) :=
    ((steps_one (step_returned rfl)).cons (step_micro rfl hl hwf hx)).cons hinvoke
  refine ⟨u, hx, ?_⟩
  obtain ⟨hread, t, size, data, rfl⟩ | ⟨hread, hsame⟩ := exec_micro_read_or_silent hl hx
  · rw [parserReturn_of_txf rfl] at hrun
    exact ⟨iff_of_true rfl hread, Bool.noConfusion, fun _ => ⟨restarted_transmit t size data, hrun⟩⟩
  · have hcur : u.cur = s.cur := by rw [hsame]
    have hsilent : u.txf = false := by
      rw [hsame]
      exact htxf
    have hloud : u.txf ≠ true := Bool.eq_false_iff.1 hsilent
    rw [parserReturn_of_silent (by exact hsilent)] at hrun
    exact ⟨iff_of_false hloud hread, fun _ => hcur ▸ hrun, fun h => absurd h hloud⟩

end Sys2Proof.Machine
end

section
/-! The dispatcher: `Lookup`, `register`, and the calls of external handlers with the transmissions they make
(42_dispatcher.md R141, R143, R145, R146; 41_frame_parser.md R131, R132; 70_reset_and_hazards.md R211). -/

namespace Sys2Proof.Machine

/-! ## The registry -/

/-- Settles O11: `findIdx?` stops at the first entry with the key. -/
theorem lookupTakesTheLeastIndex : Obligations.LookupTakesTheLeastIndex :=
  fun _ _ => ⟨fun _ => lookupSlot_eq_some_iff, lookupSlot_eq_none_iff⟩

/-- Settles O33: the act is `registerHandler`, which checks the key's length and the number of entries in use. -/
theorem registerAppendsOrIsIgnored : Obligations.RegisterAppendsOrIsIgnored := by
  intro s key h later hp hi
  rw [step_agent hp hi, State.agentStep]
  exact ⟨fun hignored => congrArg _ (registerHandler_ignored _ key h hignored),
    fun hkey hfree => congrArg _ (registerHandler_appends _ key h hkey hfree)⟩

/-! ## The transmissions a handler makes -/

/-- The frame of R80 that carries these data bytes. -/
def replyFrame (data : List Byte) : List Byte :=
  envelope (BitVec.ofNat 16 data.length) data (Config.crc16 data)

/-- These bytes are what a request may send: `size` of them, the request's data first (R170, log entry 11). -/
def TxRequest.MaySend (r : TxRequest) (data : List Byte) : Prop :=
  data.length = r.size.toNat ∧ r.data.take r.size.toNat <+: data

/-- How many bytes a request sends from past the end of its data (log entry 11). -/
def TxRequest.pastEnd (r : TxRequest) : Nat := r.size.toNat - r.data.length

/-- Reception restarted, `TXF` set and these bytes sent, with so many free values drawn for them (R170). -/
def State.transmitted (s : State) (bytes : List Byte) (drawn : Nat) : State :=
  { s with
    cur := 0, wp := 0, err := false, txf := true, rxa := true, idlePending := false, tcPending := false
    tx := s.tx ++ bytes, free := s.free + drawn }

theorem replyFrame_of_length {data : List Byte} {size : Half} (h : data.length = size.toNat) :
    replyFrame data = envelope size data (Config.crc16 data) := by
  rw [replyFrame, h, BitVec.ofNat_toNat, BitVec.setWidth_eq]

theorem transmit_eq_transmitted (s : State) (r : TxRequest) :
    transmit s r.size r.data = s.transmitted (replyFrame (s.sentData r.size r.data)) r.pastEnd := by
  rw [replyFrame_of_length (sentData_length s r.size r.data)]
  rfl

theorem maySend_sentData (s : State) (r : TxRequest) : r.MaySend (s.sentData r.size r.data) :=
  ⟨sentData_length s r.size r.data, List.prefix_append _ _⟩

/-- A request with enough data sends the first `size` bytes of it. -/
theorem TxRequest.MaySend.replyFrame_eq {r : TxRequest} {data : List Byte} (h : r.MaySend data)
    (hlong : r.size.toNat ≤ r.data.length) :
    replyFrame data = envelope r.size (r.data.take r.size.toNat) (Config.crc16 (r.data.take r.size.toNat)) := by
  obtain ⟨hlen, hprefix⟩ := h
  rw [replyFrame_of_length hlen, hprefix.eq_of_length (by rw [List.length_take_of_le hlong, hlen])]

/-- With enough data for each request, the frames sent are fixed. -/
theorem flatMap_replyFrame_of_long {requests : List TxRequest} {sent : List (List Byte)}
    (h : List.Forall₂ TxRequest.MaySend requests sent) (hlong : ∀ r ∈ requests, r.size.toNat ≤ r.data.length) :
    sent.flatMap replyFrame = requests.flatMap fun r =>
      envelope r.size (r.data.take r.size.toNat) (Config.crc16 (r.data.take r.size.toNat)) := by
  induction h with
  | nil => rfl
  | cons hfirst _ ih =>
    obtain ⟨hr, hlater⟩ := List.forall_mem_cons.1 hlong
    rw [List.flatMap_cons, List.flatMap_cons, hfirst.replyFrame_eq hr, ih hlater]

theorem pastEnd_sum_of_long {requests : List TxRequest} (hlong : ∀ r ∈ requests, r.size.toNat ≤ r.data.length) :
    (requests.map TxRequest.pastEnd).sum = 0 := by
  simpa [List.sum_eq_zero_iff_forall_eq_nat, TxRequest.pastEnd, Nat.sub_eq_zero_iff_le] using hlong

theorem step_transmission {s : State} {r : TxRequest} {later : List TxRequest} {ret : Bool} {ctx : FrameCtx}
    (hp : s.phase = .uplink (r :: later) ret ctx) :
    step s = .next { s.transmitted (replyFrame (s.sentData r.size r.data)) r.pastEnd with
      phase := .uplink later ret ctx } := by
  rw [step_of_exec (fetch_uplink_cons s r later ret ctx hp) rfl, hp, State.retire, transmit_eq_transmitted]

/-- A handler's transmissions are made in order, one in each step, and together they are one. -/
theorem steps_transmissions {s : State} {requests : List TxRequest} {ret : Bool} {ctx : FrameCtx}
    (hp : s.phase = .uplink requests ret ctx) (hne : requests ≠ []) :
    ∃ sent, List.Forall₂ TxRequest.MaySend requests sent ∧
      Steps requests.length s { s.transmitted (sent.flatMap replyFrame) (requests.map TxRequest.pastEnd).sum with
        phase := .uplink [] ret ctx } := by
  induction requests generalizing s with
  | nil => exact absurd rfl hne
  | cons r later ih =>
    have hstep := step_transmission hp
    have hfirst := maySend_sentData s r
    cases later with
    | nil =>
      refine ⟨[_], .cons hfirst .nil, ?_⟩
      simpa using steps_one hstep
    | cons r' later =>
      obtain ⟨sent, hsent, hrun⟩ :=
        ih (s := { s.transmitted _ _ with phase := .uplink (r' :: later) ret ctx }) rfl (List.cons_ne_nil _ _)
      refine ⟨_ :: sent, .cons hfirst hsent, ?_⟩
      simpa [State.transmitted, Nat.add_assoc] using hrun.cons hstep

/-! ## The call and the return -/

theorem step_call {s : State} {id : Fin 15} {body : List Byte} {ctx : FrameCtx}
    (hp : s.phase = .handler (.ext id) body ctx) : step s = .next (s.callExternal (.ext id) body ctx) := by
  rw [step, fetch_ext s id body ctx hp]

theorem callExternal_unscripted {s : State} (hh : s.handlers = []) (h : HandlerId) (body : List Byte)
    (ctx : FrameCtx) :
    s.callExternal h body ctx = { s with calls := s.calls ++ [(h, body)], phase := .uplink [] true ctx } := by
  simp [State.callExternal, State.nextReply, hh, Memory.change_nil]

theorem callExternal_scripted {s : State} {cells : List Host.Cell} {requests : List TxRequest} {ret : Bool}
    {later : List HandlerReply} (hh : s.handlers = ⟨cells, requests, ret⟩ :: later) (h : HandlerId)
    (body : List Byte) (ctx : FrameCtx) :
    s.callExternal h body ctx = { s with
      calls := s.calls ++ [(h, body)], handlers := later, mem := s.mem.change cells
      phase := .uplink requests ret ctx } := by
  simp [State.callExternal, State.nextReply, hh]

theorem step_handler_returns {s : State} {ctx : FrameCtx} (hp : s.phase = .uplink [] true ctx) :
    step s = .next (s.parserReturn ctx) := by
  rw [step, fetch_uplink_nil s ctx hp]

theorem step_handler_hangs {s : State} {ctx : FrameCtx} (hp : s.phase = .uplink [] false ctx) :
    step s = .fault .handlerHangs := by
  rw [step, fetch_uplink_hangs s ctx hp]

section
variable {s : State} {id : Fin 15} {body : List Byte} {ctx : FrameCtx}

/-- A handler that asks for nothing and returns: its frame is `Consumed` (R132). -/
theorem steps_silent_call (hp : s.phase = .handler (.ext id) body ctx) (htxf : s.txf = false)
    (hcalled : (s.callExternal (.ext id) body ctx).phase = .uplink [] true ctx) :
    Steps 2 s ((s.callExternal (.ext id) body ctx).consumed ctx) := by
  have hsilent : (s.callExternal (.ext id) body ctx).txf = false := htxf
  have hreturn := step_handler_returns hcalled
  rw [parserReturn_of_silent hsilent] at hreturn
  exact (steps_one hreturn).cons (step_call hp)

/-- A handler that asks for transmissions makes them all, before it returns or hangs. -/
theorem steps_transmitting_call {requests : List TxRequest} {ret : Bool}
    (hp : s.phase = .handler (.ext id) body ctx)
    (hcalled : (s.callExternal (.ext id) body ctx).phase = .uplink requests ret ctx) (hne : requests ≠ []) :
    ∃ sent, List.Forall₂ TxRequest.MaySend requests sent ∧
      Steps (requests.length + 1) s
        { (s.callExternal (.ext id) body ctx).transmitted (sent.flatMap replyFrame)
            (requests.map TxRequest.pastEnd).sum with phase := .uplink [] ret ctx } := by
  obtain ⟨sent, hsent, hrun⟩ := steps_transmissions hcalled hne
  exact ⟨sent, hsent, hrun.cons (step_call hp)⟩

/-- Where it returns, `Consumed` becomes one `Sync` (R131). -/
theorem steps_transmitting_call_returns {cells : List Host.Cell} {requests : List TxRequest}
    {later : List HandlerReply} (hp : s.phase = .handler (.ext id) body ctx)
    (hh : s.handlers = ⟨cells, requests, true⟩ :: later) (hne : requests ≠ []) :
    ∃ sent, List.Forall₂ TxRequest.MaySend requests sent ∧
      Steps (requests.length + 2) s { s with
        calls := s.calls ++ [(.ext id, body)], handlers := later, mem := s.mem.change cells
        cur := 0, wp := 0, err := false, rxa := true, idlePending := false, tcPending := false
        txf := false, tx := s.tx ++ sent.flatMap replyFrame
        outcome := some .sync, phase := .rest, free := s.free + (requests.map TxRequest.pastEnd).sum } := by
  have hcalled := callExternal_scripted hh (.ext id) body ctx
  obtain ⟨sent, hsent, hrun⟩ := steps_transmitting_call hp (congrArg State.phase hcalled) hne
  rw [hcalled] at hrun
  refine ⟨sent, hsent, hrun.trans (steps_one ?_)⟩
  rw [step_handler_returns rfl, parserReturn_of_txf rfl]
  rfl

end

/-- Settles O56: with enough data for each request the bytes sent are the data's first, and no free value is drawn. -/
theorem externalHandlerTransmitsInOrder : Obligations.ExternalHandlerTransmitsInOrder := by
  intro s id body ctx cells requests later hp htxf hh hlong
  refine ⟨?_, fun hne => ?_⟩
  · rintro rfl
    have hcalled := callExternal_scripted hh (.ext id) body ctx
    have hrun := steps_silent_call hp htxf (congrArg State.phase hcalled)
    rwa [hcalled] at hrun
  · obtain ⟨sent, hsent, hrun⟩ := steps_transmitting_call_returns hp hh hne
    rw [flatMap_replyFrame_of_long hsent hlong, pastEnd_sum_of_long hlong] at hrun
    rw [htxf]
    exact hrun

/-- Settles O58: the call, the transmissions, and the parser's return or the machine's stop. -/
theorem externalHandlerCallsOfEveryKind : Obligations.ExternalHandlerCallsOfEveryKind := by
  intro s id body ctx hp htxf
  refine ⟨fun hh => ?_, fun cells requests later hh hne => ?_, fun cells requests later hh => ?_⟩
  · have hcalled := callExternal_unscripted hh (.ext id) body ctx
    have hrun := steps_silent_call hp htxf (congrArg State.phase hcalled)
    rwa [hcalled] at hrun
  · obtain ⟨sent, hsent, hrun⟩ := steps_transmitting_call_returns hp hh hne
    exact ⟨_, sent, hrun, hsent, by rw [htxf]; rfl⟩
  · have hcalled := callExternal_scripted hh (.ext id) body ctx
    by_cases hne : requests = []
    · subst hne
      have hcall := step_call hp
      rw [hcalled] at hcall
      exact ⟨_, [], steps_one hcall, .nil, fun _ => rfl, absurd rfl, step_handler_hangs rfl⟩
    · obtain ⟨sent, hsent, hrun⟩ := steps_transmitting_call hp (congrArg State.phase hcalled) hne
      rw [hcalled] at hrun
      exact ⟨_, sent, hrun, hsent, (absurd · hne), fun _ => rfl, step_handler_hangs rfl⟩

end Sys2Proof.Machine
end

section
/-! The classes of micro-instruction one by one: the reads and their replies, the writes, the read-modify-writes and
the no-op (43_regaccess.md R151 to R162). -/

namespace Sys2Proof.Machine

/-! ## Reads -/

/-- A read class as one update: the access, the answer used up, and the reply of exactly the width's bytes. -/
theorem readAndReply_eq_update (s : State) (a : Word) (w : Width) :
    readAndReply s a w = { s with
      cur := 0, wp := 0, err := false, txf := true, rxa := true, idlePending := false, tcPending := false
      tx := s.tx ++ (bytesLe (BitVec.ofNat 16 w.bytes) 2 ++ bytesLe (s.readValue a w) w.bytes ++
        bytesLe (Config.crc16 (bytesLe (s.readValue a w) w.bytes)) 2)
      memLog := s.memLog ++ [⟨.read, a, w, s.readValue a w⟩]
      reads := s.reads.tail } := by
  have hlen : (bytesLe (s.readValue a w) w.bytes).length = (BitVec.ofNat 16 w.bytes).toNat := by
    cases w <;> exact bytesLe_length _ _
  rw [readAndReply_eq, transmit_eq _ _ _ hlen]
  rfl

/-- Settles O21: the three classes differ in the width alone. -/
theorem readsReplyWithTheirValue : Obligations.ReadsReplyWithTheirValue := by
  intro addr s
  refine ⟨?_, ?_, ?_⟩ <;> rintro _ rfl
  · exact congrArg Host.Outcome.next (readAndReply_eq_update s (target addr) .word)
  · exact congrArg Host.Outcome.next (readAndReply_eq_update s (target addr) .byte)
  · exact congrArg Host.Outcome.next (readAndReply_eq_update s (target addr) .half)

/-! ## Writes -/

/-- A write of a zero-extended operand stores the operand's own bytes. -/
theorem memByte_memWrite_zeroExtend {n : Nat} (s : State) (a : Word) (w : Width) (v : BitVec n) {k : Nat}
    (hk : k < w.bytes) : (memWrite s a w (v.zeroExtend 32)).memByte (a.toNat + k) = v.extractLsb' (8 * k) 8 := by
  have hle : w.bytes ≤ 4 := by cases w <;> decide
  rw [memByte_memWrite_inside s a w _ k hk, BitVec.zeroExtend, BitVec.extractLsb'_setWidth_of_le (by omega)]

/-- Settles O24: a write class is one `memWrite` of its width at the masked address. -/
theorem writesStoreExactlyTheirBytes : Obligations.WritesStoreExactlyTheirBytes := by
  intro addr s
  refine ⟨fun v => ⟨_, rfl, fun k hk => ?_, memByte_memWrite_outside s (target addr) .byte _, rfl⟩,
    fun v => ⟨_, rfl, fun k hk => ?_, memByte_memWrite_outside s (target addr) .half _, rfl⟩,
    fun v => ⟨_, rfl, fun k hk => ?_, memByte_memWrite_outside s (target addr) .word _, rfl⟩⟩
  · exact memByte_memWrite_zeroExtend s (target addr) .byte v hk
  · exact memByte_memWrite_zeroExtend s (target addr) .half v hk
  · exact memByte_memWrite_inside s (target addr) .word v k hk

/-! ## Read-modify-writes -/

/-- Settles O27: each class is one read-modify-write at the masked address, of its own function. -/
theorem modifyClassesReadThenWrite : Obligations.ModifyClassesReadThenWrite := by
  rintro addr s _ rfl i r (⟨imm, rfl, rfl⟩ | ⟨imm, rfl, rfl⟩ | ⟨mask, value, rfl, rfl⟩)
  · exact ⟨_, rfl, rmw_mem s (target addr) (orOf imm), rmw_out s _ _, rmw_eq s _ _⟩
  · exact ⟨_, rfl, rmw_mem s (target addr) (andOf imm), rmw_out s _ _, rmw_eq s _ _⟩
  · exact ⟨_, rfl, rmw_mem s (target addr) (modifyOf mask value), rmw_out s _ _, rmw_eq s _ _⟩

theorem bitMask_getLsbD (idx : Byte) {j : Nat} (hj : j < 32) : (bitMask idx).getLsbD j = (j == idx.toNat) := by
  rw [bitMask, ← BitVec.twoPow_eq, BitVec.getLsbD_twoPow]
  by_cases h : idx.toNat = j
  · simp [h, hj]
  · simp [h, Ne.symm h]

theorem setBitOf_getLsbD (idx : Byte) (v : Word) {j : Nat} (hj : j < 32) :
    (setBitOf idx v).getLsbD j = (v.getLsbD j || j == idx.toNat) := by
  rw [setBitOf, BitVec.getLsbD_or, bitMask_getLsbD idx hj]

theorem clearBitOf_getLsbD (idx : Byte) (v : Word) {j : Nat} (hj : j < 32) :
    (clearBitOf idx v).getLsbD j = (v.getLsbD j && j != idx.toNat) := by
  rw [clearBitOf, BitVec.getLsbD_and, BitVec.getLsbD_not, bitMask_getLsbD idx hj, decide_eq_true hj, Bool.true_and,
    bne]

theorem exec_setb_of_le {idx : Byte} (h : idx.toNat ≤ 31) (addr : Word) (s : State) :
    exec (.setb addr idx) s = .next (readModifyWrite s (target addr) (setBitOf idx)) :=
  if_pos (decide_eq_true h)

theorem exec_setb_of_lt {idx : Byte} (h : 31 < idx.toNat) (addr : Word) (s : State) :
    exec (.setb addr idx) s = .next s :=
  if_neg (by simpa [bitIndexOk] using h)

theorem exec_clrb_of_le {idx : Byte} (h : idx.toNat ≤ 31) (addr : Word) (s : State) :
    exec (.clrb addr idx) s = .next (readModifyWrite s (target addr) (clearBitOf idx)) :=
  if_pos (decide_eq_true h)

theorem exec_clrb_of_lt {idx : Byte} (h : 31 < idx.toNat) (addr : Word) (s : State) :
    exec (.clrb addr idx) s = .next s :=
  if_neg (by simpa [bitIndexOk] using h)

/-- The word a read-modify-write leaves is also the one its write access shows. -/
theorem rmw_eq_memWord (s : State) (a : Word) (f : Word → Word) : readModifyWrite s a f = { s with
    mem := (readModifyWrite s a f).mem
    memLog := s.memLog ++ [⟨.read, a, .word, s.readValue a .word⟩,
      ⟨.write, a, .word, (readModifyWrite s a f).memWord a.toNat⟩]
    reads := s.reads.tail } := by
  rw [rmw_mem]
  exact rmw_eq s a f

/-- Settles O25: up to index 31 a read-modify-write with `setBitOf`, above it nothing. -/
theorem setBitSetsOneBit : Obligations.SetBitSetsOneBit := by
  rintro addr idx s _ rfl
  refine ⟨fun hidx => ⟨_, exec_setb_of_le hidx addr s, fun j hj => ?_, rmw_out s _ _, rmw_eq_memWord s _ _⟩,
    fun hidx => exec_setb_of_lt hidx addr s⟩
  exact (congrArg (·.getLsbD j) (rmw_mem s (target addr) _)).trans (setBitOf_getLsbD idx _ hj)

/-- Settles O26: up to index 31 a read-modify-write with `clearBitOf`, above it nothing. -/
theorem clearBitClearsOneBit : Obligations.ClearBitClearsOneBit := by
  rintro addr idx s _ rfl
  refine ⟨fun hidx => ⟨_, exec_clrb_of_le hidx addr s, fun j hj => ?_, rmw_out s _ _, rmw_eq_memWord s _ _⟩,
    fun hidx => exec_clrb_of_lt hidx addr s⟩
  exact (congrArg (·.getLsbD j) (rmw_mem s (target addr) _)).trans (clearBitOf_getLsbD idx _ hj)

/-! ## The no-op -/

theorem step_nop_body {s : State} {body : List Byte} {ctx : FrameCtx} (hp : s.phase = .handler .ra body ctx)
    (hnop : isNopBody body = true) : step s = .next { s with phase := .returned ctx } := by
  have hfetch : s.fetch = .instr (.nop body) := by rw [fetch_ra s body ctx hp, decodeBody_of_isNopBody hnop]
  rw [step_of_exec (u := s) hfetch rfl, hp, State.retire]

/-- Settles O28: `RA` returns at once, and with `TXF` clear the parser's return is `Consumed`. -/
theorem nopDoesNothing : Obligations.NopDoesNothing := by
  intro s body ctx hp hbody
  have hstep := step_nop_body hp ((isNopBody_iff body).2 hbody)
  have hreturn := transmissionTurnsConsumedIntoSync { s with phase := .returned ctx } ctx rfl
  exact ⟨rfl, hstep, fun htxf => (steps_one (hreturn.2 htxf)).cons hstep⟩

end Sys2Proof.Machine
end

section
/-! The Transmit Path and the handshake (44_transmit_resync.md R170, R173, R174). -/

namespace Sys2Proof.Machine

/-! ## The handshake -/

/-- Settles O17: the three meanings are the handshake, and differ only in how the event step goes on. -/
theorem handshakeAcknowledgesAndRestarts : Obligations.HandshakeAcknowledgesAndRestarts := by
  intro s
  refine ⟨?_, ?_, ?_⟩
  · exact congrArg (fun t => Host.Outcome.next t.syncOutcome) (handshake_eq s)
  · exact congrArg (fun t => Host.Outcome.next t.endEvent) (handshake_eq s)
  · exact congrArg Host.Outcome.next (handshake_eq s)

theorem handshake_tx_eq_encode (s : State) : (handshake s).tx = s.tx ++ encode .ack := handshake_tx s

/-- Reception is restarted and `TXF` clear after a handshake, so another one only sends. -/
theorem handshake_handshake (s : State) :
    handshake (handshake s) = { handshake s with tx := (handshake s).tx ++ encode .ack } := by
  rw [← handshake_tx_eq_encode]
  rfl

/-- Settles O18: each handshake sends the encoding of `ACK`. -/
theorem handshakeIsIdempotent : Obligations.HandshakeIsIdempotent := by
  intro s
  refine ⟨handshake s, handshake (handshake s), rfl, rfl, ?_, ⟨encode .ack, ?_, ?_, ?_⟩, ?_, ?_⟩
  · rw [handshake_handshake]
  · exact handshake_tx_eq_encode (handshake s)
  · exact handshake_tx_eq_encode s
  · exact Laws.WireLength.ack rfl
  · rw [handshake_mem, handshake_mem]
  · rw [handshake_reg, handshake_reg]

/-! ## A transmission -/

/-- `REPLY` as one update, for data of any length. -/
theorem exec_reply (size : Half) (data : List Byte) (s : State) :
    exec (.reply size data) s = .next (s.transmitted
      (envelope size (s.sentData size data) (Config.crc16 (s.sentData size data))) (size.toNat - data.length)) := rfl

/-- Settles O19: with enough data no free value is drawn. -/
theorem transmitRestartsAndSendsAFrame : Obligations.TransmitRestartsAndSendsAFrame := by
  intro size data s hlong
  rw [exec_reply, sentData_of_le s size data hlong, Nat.sub_eq_zero_of_le hlong]
  rfl

/-- The next `n` bytes sent from past the end of the data (log entry 11). -/
def State.freeBytes (s : State) (n : Nat) : List Byte := (List.range n).map fun k => Config.pastEnd (s.free + k)

@[simp] theorem freeBytes_length (s : State) (n : Nat) : (s.freeBytes n).length = n := by
  simp [State.freeBytes]

/-- Where the data is too short, all of it is sent and free values make up the rest. -/
theorem sentData_of_lt (s : State) (size : Half) (data : List Byte) (h : data.length < size.toNat) :
    s.sentData size data = data ++ s.freeBytes (size.toNat - data.length) := by
  rw [State.sentData, List.take_of_length_le (Nat.le_of_lt h), State.freeBytes]

/-- Settles O20: the free bytes are as many as the data falls short of `size`. -/
theorem transmitPastTheEndSendsFreeBytes : Obligations.TransmitPastTheEndSendsFreeBytes := by
  intro size data s hshort
  refine ⟨s.freeBytes (size.toNat - data.length), ?_, ?_⟩
  · rw [freeBytes_length]
    exact Nat.add_sub_of_le (Nat.le_of_lt hshort)
  · rw [exec_reply, sentData_of_lt s size data hshort, freeBytes_length]
    rfl

end Sys2Proof.Machine
end

section
/-! The latched state: what stops the machine, the ways into the latched state and out of it, and what a latched block
does meanwhile (60_exceptions.md R180, R181, R185, R190 to R192). -/

namespace Sys2Proof.Machine

/-! ## What stops the machine -/

/-- Settles O44: every instruction answers a next state, so a step stops only where there is nothing to fetch behind a
handler that does not return. -/
theorem onlyAHangingHandlerStopsTheMachine : Obligations.OnlyAHangingHandlerStopsTheMachine := by
  refine ⟨exec_next, fun s => ?_⟩
  cases hf : s.fetch with
  | instr i =>
    obtain ⟨u, hx⟩ := exec_next i s
    exact .inl ⟨_, step_of_exec hf hx⟩
  | hangs =>
    obtain ⟨ctx, hp⟩ := phase_of_fetch_hangs hf
    exact .inr ⟨step_handler_hangs hp, ctx, hp⟩
  | _ =>
    rw [step, hf]
    exact .inl ⟨_, rfl⟩

/-! ## While latched -/

/-- Neither the parse loop nor a handler runs while the error is latched. -/
theorem State.Inv.phase_of_latched {s : State} (hs : s.Inv) (herr : s.err = true) :
    s.phase = .rest ∨ (∃ wp, s.phase = .tail wp) ∨ s.phase = .ackDue := by
  have hok := hs.phaseOk
  cases hp : s.phase with
  | rest => exact .inl rfl
  | tail wp => exact .inr (.inl ⟨wp, rfl⟩)
  | ackDue => exact .inr (.inr rfl)
  | _ => simp [State.PhaseOk, hp, herr] at hok

/-- No access to `MEM` is made and no external handler is called. -/
def SameRecords (s t : State) : Prop := t.memLog = s.memLog ∧ t.calls = s.calls

theorem AgentEffect.sameRecords {s t : State} {i : Input} (he : AgentEffect s i t) : SameRecords s t := by
  cases he <;> exact ⟨rfl, rfl⟩

/-- Of the acts of the other agents only `start()` clears a latched error; none but it moves the cursor, and none
transmits. -/
theorem AgentEffect.of_latched {s t : State} {i : Input} (he : AgentEffect s i t) (herr : s.err = true) :
    i = .start ∧ Restarted t ∨ t.err = true ∧ t.cur = s.cur ∧ t.tx = s.tx := by
  cases he with
  | started => exact .inl ⟨rfl, rfl, rfl, rfl, rfl, rfl, rfl⟩
  | tcActive | idleBehind => exact .inr ⟨rfl, rfl, rfl⟩
  | _ => exact .inr ⟨herr, rfl, rfl⟩

/-- The ways out of the latched state (R192), and the acknowledgement that is due (log entry 12). -/
def State.RestartDue (s : State) : Prop :=
  (s.phase = .rest ∧ s.inputs.head? = some .start) ∨
  (∃ wp, s.phase = .tail wp ∧ s.tailBytes wp = Config.sync4Bytes) ∨
  s.phase = .ackDue

/-- A step from the latched state takes a way out of it, or stays in it with nothing executed. -/
theorem State.Inv.step_of_latched {s t : State} (hs : s.Inv) (herr : s.err = true) (hstep : step s = .next t) :
    SameRecords s t ∧ (s.RestartDue ∧ Restarted t ∨ t.err = true ∧ t.cur = s.cur ∧ t.tx = s.tx) := by
  have hphase := hs.phase_of_latched herr
  cases step_cases hstep with
  | tailMarker wp hp hb => exact ⟨⟨rfl, rfl⟩, .inl ⟨.inr (.inl ⟨wp, hp, hb⟩), restarted_handshake s⟩⟩
  | ack hp => exact ⟨⟨rfl, rfl⟩, .inl ⟨.inr (.inr hp), restarted_handshake s⟩⟩
  | agent input later hp hi =>
    have he := agentStep_effect { s with inputs := later } input
    refine ⟨he.sameRecords, (he.of_latched herr).imp_left ?_⟩
    rintro ⟨rfl, ht⟩
    exact ⟨.inl ⟨hp, by rw [hi, List.head?_cons]⟩, ht⟩
  | noMarker | quiet => exact ⟨⟨rfl, rfl⟩, .inr ⟨herr, rfl, rfl⟩⟩
  | link _ _ _ _ hp | needMore _ _ hp | micro _ _ _ hp | call _ _ _ hp | uplink _ _ _ _ hp => simp [hp] at hphase
  | returned _ hp => rcases hp with hp | hp <;> simp [hp] at hphase

/-- Settles O52: a way out of the latched state leaves `ERR` clear. -/
theorem latchedBlockExecutesNothing : Obligations.LatchedBlockExecutesNothing := by
  intro s t hs herr hstep
  obtain ⟨⟨hlog, hcalls⟩, ⟨_, _, _, hclear, _⟩ | ⟨_, hsame⟩⟩ := hs.step_of_latched herr hstep
  · exact ⟨hlog, hcalls, fun h => Bool.noConfusion (hclear.symm.trans h)⟩
  · exact ⟨hlog, hcalls, fun _ => hsame⟩

/-- The doubled marker stands in the four bytes below the fill position. -/
theorem rxBytes_of_marker {s : State} {wp : Nat} (hb : s.tailBytes wp = Config.sync4Bytes) :
    4 ≤ wp ∧ s.rxBytes (wp - 4) wp = Config.sync4Bytes := by
  obtain ⟨hwp, _⟩ := (tailBytes_eq_iff s wp).1 hb
  rw [State.tailBytes, if_neg (Nat.not_lt.2 hwp)] at hb
  exact ⟨hwp, hb⟩

/-- Settles O53: the ways out are `State.RestartDue`. -/
theorem onlyARestartLeavesTheLatchedState : Obligations.OnlyARestartLeavesTheLatchedState := by
  intro s t hs herr hstep hclear
  obtain ⟨_, ⟨hdue, ht⟩ | ⟨hset, _⟩⟩ := hs.step_of_latched herr hstep
  · refine ⟨ht, hdue.imp_right (.imp_left ?_)⟩
    rintro ⟨wp, hp, hb⟩
    exact ⟨wp, hp, rxBytes_of_marker hb⟩
  · exact Bool.noConfusion (hclear.symm.trans hset)

/-! ## Entry to the latched state -/

/-- A decoded link item that latches the error is an illegal size or a frame whose CRC does not match, and taking the
exception is all it does (R181). -/
theorem linkItem_latches {s u : State} {b rest : List Byte} {i : Instr} (hd : decodeLink b = .instr i rest)
    (hx : exec i s = .next u) (herr : s.err = false) (hset : u.err = true) :
    u = s.transportError ∧
      ((∃ size, i = .illegalSize size) ∨ ∃ payload crc, i = .frame payload crc ∧ Config.crc16 payload ≠ crc) := by
  have hkept : s.err ≠ true := by simp [herr]
  rcases decodeLink_cases b with ⟨_, h⟩ | ⟨_, _, h⟩ | ⟨_, _, h⟩ | ⟨_, _, _, h⟩ | ⟨_, _, h⟩ <;> rw [hd] at h <;> cases h
  case inr.inl => cases hx; cases hset
  case inr.inr.inl => cases hx; exact ⟨rfl, .inl ⟨_, rfl⟩⟩
  case inr.inr.inr.inr =>
    rw [exec] at hx
    rcases execFrame_cases _ _ s with ⟨hcrc, h⟩ | ⟨_, _, h⟩ | ⟨_, _, _, h⟩ <;> rw [h] at hx <;> cases hx
    · exact ⟨rfl, .inr ⟨_, _, rfl, hcrc⟩⟩
    · exact absurd hset hkept
    · exact absurd hset hkept

/-- Of the acts of the other agents only the handling of a transfer-complete event, or of an idle event behind the
cursor, latches the error. -/
theorem AgentEffect.latches {s t : State} {i : Input} (he : AgentEffect s i t) (herr : s.err = false)
    (hset : t.err = true) :
    ∃ first, i = .serve first ∧
      (s.nextEvent first = some .transferComplete ∧ t = { s with tcPending := false, err := true } ∨
        s.nextEvent first = some .idle ∧ s.wp < s.cur) := by
  cases he with
  | tcActive first hnext => exact ⟨first, rfl, .inl ⟨hnext, rfl⟩⟩
  | idleBehind first hnext _ _ hwp => exact ⟨first, rfl, .inr ⟨hnext, hwp⟩⟩
  | started => cases hset
  | _ => exact Bool.noConfusion (herr.symm.trans hset)

/-- A micro-instruction clears `ERR` by its reply, or leaves it. -/
theorem MicroEffect.err {s u : State} (he : MicroEffect s u) (herr : s.err = false) : u.err = false := by
  rcases he.sameButMem_or_replied with h | ⟨_, _, _, _, rfl⟩
  · rw [h]
    exact herr
  · rfl

/-- Settles O54: the defensive line of R102 is unreachable, so a link item and the transfer-complete event remain. -/
theorem latchedStateIsEnteredPrecisely : Obligations.LatchedStateIsEnteredPrecisely := by
  intro s t hs herr hstep hset
  have hkept : s.err ≠ true := by simp [herr]
  cases step_cases hstep with
  | link wp i rest u hp hd hx =>
    obtain ⟨rfl, hcause⟩ := linkItem_latches hd hx herr hset
    refine ⟨rfl, ?_⟩
    rcases hcause with ⟨size, rfl⟩ | ⟨payload, crc, rfl, hcrc⟩
    · exact .inl ⟨wp, size, rest, hp, hd⟩
    · exact .inr (.inl ⟨wp, payload, crc, rest, hp, hd, hcrc⟩)
  | agent input later hp hi =>
    obtain ⟨first, rfl, ⟨hnext, ht⟩ | ⟨hnext, hwp⟩⟩ :=
      (agentStep_effect { s with inputs := later } input).latches herr hset
    · rw [ht]
      exact ⟨hp ▸ rfl, .inr (.inr ⟨hp, first, by rw [hi, List.head?_cons], hnext⟩)⟩
    · exact absurd (defensiveLineIsUnreachable s first hs hnext herr) (Nat.not_le.2 hwp)
  | micro _ _ _ _ _ he => exact Bool.noConfusion ((he.err herr).symm.trans hset)
  | returned ctx =>
    rw [parserReturn_eq] at hset
    exact absurd hset hkept
  | tailMarker | ack | uplink => cases hset
  | needMore | noMarker | call | quiet => exact absurd hset hkept

end Sys2Proof.Machine
end

section
/-! Before the first `start()`: with reception stopped, bytes and events are lost, and the block waits
(70_reset_and_hazards.md R201). -/

namespace Sys2Proof.Machine

/-- Of the acts of the other agents on a stopped block only `start()` reaches its receive registers: bytes and idle
events are lost (R43, R44, D15), and the invariant leaves no event to serve. -/
theorem AgentEffect.of_stopped {s t : State} {i : Input} (he : AgentEffect s i t) (hs : s.Inv) (hrxa : s.rxa = false) :
    (i = .start ∧ Restarted t ∧ t.tx = s.tx ∧ t.rxbuf = s.rxbuf) ∨
      t = { s with inputs := t.inputs, reg := t.reg, mem := t.mem } := by
  cases he with
  | started => exact .inl ⟨rfl, ⟨rfl, rfl, rfl, rfl, rfl, rfl⟩, rfl, rfl⟩
  | lost | dropped | noEvent | ignored | registered | memChanged => exact .inr rfl
  | idleStopped first hnext | tcStopped first hnext => cases (hs.nextEvent_of_stopped hrxa first).symm.trans hnext
  | stored _ hr | raised hr | idleLatched _ _ hr | idleBehind _ _ hr | idleParse _ _ hr | tcActive _ _ hr =>
    exact Bool.noConfusion (hrxa.symm.trans hr)

/-- Settles O46: between event steps a step is the next act of another agent, or none. -/
theorem stoppedBlockIgnoresTheLink : Obligations.StoppedBlockIgnoresTheLink := by
  intro s t hs hrxa hp hstep
  cases hi : s.inputs with
  | nil =>
    rw [step, fetch_rest_nil s hp hi] at hstep
    cases hstep
    exact .inr rfl
  | cons input later =>
    rw [step_agent hp hi] at hstep
    cases hstep
    have hlater : ({ s with inputs := later } : State).Inv := hs.congr rfl
    have he := agentStep_effect { s with inputs := later } input
    rcases he.of_stopped hlater hrxa with ⟨rfl, hstarted⟩ | hsame
    · exact .inl ⟨by rw [List.head?_cons], hstarted⟩
    · exact .inr hsame

end Sys2Proof.Machine
end
